-- ==== Sys2Proof/Word.lean ====
section
/-! DEFINITION. The plain data types of the block: bytes, levels, counts, channel numbers, actuator ids, modes,
transport outcomes. No operation of the block stands here. -/

namespace Sys2Proof

/-- A byte: 8 bits, unsigned, 0 to 255 (R8). -/
abbrev Byte := BitVec 8

/-- A signal level: `false` is 0 (low), `true` is 1 (high) (R8). -/
abbrev Level := Bool

/-- A counter value as the mathematical integer it stands for; `wrap` keeps it in `P_CNT_W` bits (R8, R20). -/
abbrev Count := Int

/-- The six decoder channels `E1` to `E6` (R2, R40). -/
inductive Chan where
  | e1 | e2 | e3 | e4 | e5 | e6
deriving DecidableEq, Repr

/-- The five polled channels, 2 to 6 (R2, R6 `POLL_CH`). -/
inductive PollChan where
  | e2 | e3 | e4 | e5 | e6
deriving DecidableEq, Repr

/-- The driver strategies of a channel (R24). -/
inductive ChMode where
  | edge | poll
deriving DecidableEq, Repr

/-- The slave's three actuators, ids 1 to 3 (R41). -/
inductive Motor where
  | m1 | m2 | m3
deriving DecidableEq, Repr

/-- The mode of an actuator command register (R27). -/
inductive Mode where
  | stop | fwd | bwd
deriving DecidableEq, Repr

/-- One level for each polled channel: the five registers `lastA[2..6]` (R21), or the levels of lines
A2 to A6 that a reset samples (R150). -/
structure PollLevels where
  a2 : Level
  a3 : Level
  a4 : Level
  a5 : Level
  a6 : Level
deriving DecidableEq, Repr

/-- The outcomes of the transport step (R71). -/
inductive XferOutcome where
  | deliver | drop | prefix1 | prefix2
deriving DecidableEq, Repr

end Sys2Proof
end

