-- ==== Sys2Proof/Machine/Protocol.lean ====
section
/-! DEFINITION. The one protocol definition of R115, which decoder, encoder, serializer, deserializer and producer
share: the frame length, the byte positions of a frame, the actuator ids, the direction codes and the target offset. -/

namespace Sys2Proof

/-! ## Byte positions (R67) -/

/-- Three bytes as the 24-bit value {byte0, byte1, byte2} (R67): the one frame layout of both sides (R115). -/
def packFrame (m d sp : Byte) : BitVec 24 := m ++ d ++ sp

/-- Byte 0 of a frame, bits 23:16 (R67). -/
def frameByte0 (f : BitVec 24) : Byte := f.extractLsb' 16 8

/-- Byte 1 of a frame, bits 15:8 (R67). -/
def frameByte1 (f : BitVec 24) : Byte := f.extractLsb' 8 8

/-- Byte 2 of a frame, bits 7:0 (R67). -/
def frameByte2 (f : BitVec 24) : Byte := f.extractLsb' 0 8

end Sys2Proof

namespace Sys2Proof.Machine

/-! ## Constants (R6) -/

/-- `FRAME_LEN` as the byte count of a notification (R6). -/
abbrev frameLen : Byte := 3

/-- `DIR_STOP` (R6). -/
abbrev dirStop : Byte := 0

/-- `DIR_FWD` (R6). -/
abbrev dirFwd : Byte := 1

/-- `DIR_BWD` (R6). -/
abbrev dirBwd : Byte := 2

/-- `REMOTE_OFFSET`: remote id = target − 4 (R6). -/
abbrev remoteOffset : Int := 4

/-! ## Ids and directions -/

/-- The id of an actuator: byte 0 of a frame for it (R41). -/
abbrev motorId : Motor → Byte
  | .m1 => 1
  | .m2 => 2
  | .m3 => 3

/-- The actuator a frame's byte 0 addresses, if any: every value but the three ids addresses nothing (R41). -/
def motorOfId (m : Byte) : Option Motor :=
  if m = motorId .m1 then some .m1
  else if m = motorId .m2 then some .m2
  else if m = motorId .m3 then some .m3
  else none

/-- `dirdecode(d)` (R109). -/
def dirdecode (d : Byte) : Mode :=
  if d = dirFwd then .fwd
  else if d = dirBwd then .bwd
  else .stop

end Sys2Proof.Machine
end

