-- ==== Sys2Proof/Config.lean ====
section
/-! DEFINITION. What an implementation fixes: the type of the open parameters (R7), their values at `State.reset`, the
static channel modes (R24), and the free values of a power-up. The constants declared `opaque` have no value that a
proof could see. -/

namespace Sys2Proof

/-- How `lastA[k]` is set at reset: the parameter `P_LASTA_INIT` (R7). -/
inductive LastAInit where
  | sample | zero
deriving DecidableEq, Repr

/-- The parameter `P_XFER_FAULTS` (R7): which outcomes besides full delivery the transport may have. -/
structure XferFaults where
  drop    : Bool
  prefix1 : Bool
  prefix2 : Bool
deriving DecidableEq, Repr

/-- The open parameters of R7, which "the model takes each as an argument". They stand in `State.params`, so that a
statement for every state is a statement for every choice of them; no step changes them (log 1). -/
structure Params where
  /-- `P_CNT_W`, the counter width in bits. -/
  cntW       : Nat
  /-- `P_SLAVE_ADDR`, the slave's bus address. -/
  slaveAddr  : Nat
  /-- `P_BUS_N`, the most bytes the transport delivers in one transaction. -/
  busN       : Nat
  /-- `P_LASTA_INIT`. -/
  lastAInit  : LastAInit
  /-- `P_XFER_FAULTS`. -/
  xferFaults : XferFaults
deriving DecidableEq, Repr

/-- The admitted ranges of R7: `P_CNT_W` ≥ 2 and 3 ≤ `P_BUS_N` ≤ 255. -/
abbrev Params.Admitted (p : Params) : Prop := 2 ≤ p.cntW ∧ 3 ≤ p.busN ∧ p.busN ≤ 255

/-- `P_CNT_W` − 2 of this implementation: OPEN (R7, D2), so a constant without a value (log 1). -/
opaque Config.cntWidthAboveTwo : Nat

/-- `P_SLAVE_ADDR` of this implementation: OPEN (R7, D22), a constant without a value (log 1). -/
opaque Config.slaveAddr : Nat

/-- Where `P_BUS_N` of this implementation lies in its range: OPEN (R7, D14), a constant without a value (log 1). -/
opaque Config.busNChoice : Nat

/-- The level of line A of each polled channel as the power-up's `RESET(MASTER)` samples it (R150): a draw of the
environment (R31), a free value (log 3). -/
opaque Config.powerUpLevelA : PollChan → Level

/-- All three of `P_XFER_FAULTS`: the spec's default (R7, D13; log 2). -/
def Config.allXferFaults : XferFaults := ⟨true, true, true⟩

/-- The parameters at `State.reset`: the OPEN ones without a value, the others at the spec's default (R7). -/
def Config.params : Params where
  cntW       := 2 + Config.cntWidthAboveTwo
  slaveAddr  := Config.slaveAddr
  busN       := 3 + Config.busNChoice % 253
  lastAInit  := .sample
  xferFaults := Config.allXferFaults

/-- The levels of lines A2 to A6 that the power-up samples. -/
def Config.powerUpLines : PollLevels where
  a2 := Config.powerUpLevelA .e2
  a3 := Config.powerUpLevelA .e3
  a4 := Config.powerUpLevelA .e4
  a5 := Config.powerUpLevelA .e5
  a6 := Config.powerUpLevelA .e6

/-- `CH_MODE[k]` (R24): static, channel 1 edge-triggered and channels 2 to 6 polled. -/
def Config.chMode : Chan → ChMode
  | .e1 => .edge
  | .e2 => .poll
  | .e3 => .poll
  | .e4 => .poll
  | .e5 => .poll
  | .e6 => .poll

end Sys2Proof
end

