-- ==== Sys2Proof/Syntax.lean ====
section
/-! DEFINITION. The decode rows of the block's events: one constructor for each row of spec/opcode_table.json, in the
table's order. A row stands for the event it decodes: the fields a row leaves free are its operands. -/

namespace Sys2Proof

/-- The 38 rows of the opcode table (30_encoding.md). A level or byte that a row fixes is not an operand of it. -/
inductive Instr where
  /-- `QE` 0b00: firing with A == B == 0 (R63). -/
  | qeInc00
  /-- `QE` 0b11: firing with A == B == 1 (R63). -/
  | qeInc11
  /-- `QE` 0b10: firing with A = 1, B = 0 (R63). -/
  | qeDec10
  /-- `QE` 0b01: firing with A = 0, B = 1 (R63). -/
  | qeDec01
  /-- `QP` 0b00-: poll of `k` with l = 0, a = 0 and any `b` (R64). -/
  | qpHold0 (k : PollChan) (b : Level)
  /-- `QP` 0b11-: poll of `k` with l = 1, a = 1 and any `b` (R64). -/
  | qpHold1 (k : PollChan) (b : Level)
  /-- `QP` 0b010: poll of `k` with l = 0, a = 1, b = 0 (R64). -/
  | qpInc010 (k : PollChan)
  /-- `QP` 0b101: poll of `k` with l = 1, a = 0, b = 1 (R64). -/
  | qpInc101 (k : PollChan)
  /-- `QP` 0b011: poll of `k` with l = 0, a = 1, b = 1 (R64). -/
  | qpDec011 (k : PollChan)
  /-- `QP` 0b100: poll of `k` with l = 1, a = 0, b = 0 (R64). -/
  | qpDec100 (k : PollChan)
  /-- `QP` with a channel select outside 2..6 and the sampled levels `a`, `b` (R73). -/
  | qpNoSuchChannel (k : BitVec 3) (a b : Level)
  /-- `RD` 0b001 (R65). -/
  | qdReadE1
  /-- `RD` 0b010 (R65). -/
  | qdReadE2
  /-- `RD` 0b011 (R65). -/
  | qdReadE3
  /-- `RD` 0b100 (R65). -/
  | qdReadE4
  /-- `RD` 0b101 (R65). -/
  | qdReadE5
  /-- `RD` 0b110 (R65). -/
  | qdReadE6
  /-- `RD` 0b000 (R66). -/
  | rdReserved0
  /-- `RD` 0b111 (R66). -/
  | rdReserved7
  /-- `TX`: send request with the three bytes of a frame (R68). -/
  | frSend (m d sp : Byte)
  /-- `XF` 0b00 (R71). -/
  | xfDeliver
  /-- `XF` 0b01 (R71). -/
  | xfDrop
  /-- `XF` 0b10 (R71). -/
  | xfPrefix1
  /-- `XF` 0b11 (R71). -/
  | xfPrefix2
  /-- `RX` with n = 3 (R69). -/
  | frRecv
  /-- `RX` with any other byte count `n` (R69). -/
  | frDrain (n : Byte)
  /-- `FR` 0x0101--: actuator 1 forward, speed `sp` (R70). -/
  | frxFwdM1 (sp : Byte)
  /-- `FR` 0x0102--: actuator 1 backward (R70). -/
  | frxBwdM1 (sp : Byte)
  /-- `FR` 0x01----, byte 1 = `d` = 0 or 3..255: actuator 1 stop (R70). -/
  | frxStopM1 (d sp : Byte)
  /-- `FR` 0x0201--: actuator 2 forward (R70). -/
  | frxFwdM2 (sp : Byte)
  /-- `FR` 0x0202--: actuator 2 backward (R70). -/
  | frxBwdM2 (sp : Byte)
  /-- `FR` 0x02----, byte 1 = `d` = 0 or 3..255: actuator 2 stop (R70). -/
  | frxStopM2 (d sp : Byte)
  /-- `FR` 0x0301--: actuator 3 forward (R70). -/
  | frxFwdM3 (sp : Byte)
  /-- `FR` 0x0302--: actuator 3 backward (R70). -/
  | frxBwdM3 (sp : Byte)
  /-- `FR` 0x03----, byte 1 = `d` = 0 or 3..255: actuator 3 stop (R70). -/
  | frxStopM3 (d sp : Byte)
  /-- `FR` with byte 0 = `m` = 0 or 4..255: no actuator touched (R70). -/
  | frxIgnore (m d sp : Byte)
  /-- `EV` 0b0, with the levels of A2 to A6 that the reset samples (R72, R150). -/
  | resetMaster (lines : PollLevels)
  /-- `EV` 0b1 (R72). -/
  | resetSlave
deriving DecidableEq, Repr

end Sys2Proof
end

