-- ==== Sys2Proof/Machine/State.lean ====
section
/-! DEFINITION. The state of the block as the spec gives it (10_state.md), the events its environment offers it, the
reasons a step can stop, and the state after power-up. -/

namespace Sys2Proof.Machine

/-- The six counters `cnt[1]` to `cnt[6]` (R20). -/
structure Counters where
  c1 : Count
  c2 : Count
  c3 : Count
  c4 : Count
  c5 : Count
  c6 : Count
deriving DecidableEq, Repr

/-- What an actuator command register holds once it has been written: `(mode, spd)` (R27). -/
structure ActCommand where
  mode : Mode
  spd  : Byte
deriving DecidableEq, Repr

/-- The slave's three actuator command registers (R27); `none` is `UNSET`. -/
structure ActRegs where
  m1 : Option ActCommand
  m2 : Option ActCommand
  m3 : Option ActCommand
deriving DecidableEq, Repr

/-- One bus transaction: the peer address and its three bytes in the order written (R29, R102). -/
structure Txn where
  addr : Nat
  b0   : Byte
  b1   : Byte
  b2   : Byte
deriving DecidableEq, Repr

/-- One entry of `act_log`: `(m, mode, spd)` (R30). -/
structure ActEntry where
  m   : Motor
  cmd : ActCommand
deriving DecidableEq, Repr

/-- What the environment and the agents offer the block, one atomic step each (R11, R60, R75). The fields are the
event's own; what a decode key takes from the state (`lastA[k]`, `rx_n`, the received frame) is not in the event. -/
inductive Event where
  /-- Edge firing on channel 1 with the sampled levels `ab` (R61). -/
  | qe (ab : BitVec 2)
  /-- Poll of channel select `k` with the sampled levels `ab` (R62). -/
  | qp (k : BitVec 3) (ab : BitVec 2)
  /-- Counter read request (R65). -/
  | rd (k : BitVec 3)
  /-- Send request (R68). -/
  | tx (f : BitVec 24)
  /-- Transport outcome for the transaction at the head of `wire` (R71). -/
  | xf (o : BitVec 2)
  /-- The slave's notification step, decoded by the byte count (`RECV`, R69, R75). -/
  | rx
  /-- The slave's notification step for a 3-byte notification, decoded by the frame (R70). -/
  | fr
  /-- Reset of a node, with the levels of A2 to A6 at that instant (R72, R150). -/
  | ev (t : BitVec 1) (lines : PollLevels)
  /-- Poll pass `a2 b2 a3 b3 .. a6 b6`, `a2` in bit 9 (R60, R75; log 11). -/
  | ps (w : BitVec 10)
deriving DecidableEq, Repr

/-- The faults of R132. -/
inductive Fault where
  /-- `fault UnsetActuator`: raised by an observation of `act[m]` while it is `UNSET` (`readAct`; R27, R132); no row
  of the opcode table reads `act`. Safe: the spec's own outcome, and nothing can be proved of the value. -/
  | unsetActuator
deriving DecidableEq, Repr

/-- The refusals of R132, and the one the host's pipeline asks for. -/
inductive Refusal where
  /-- No meaning yet for the row of this name: raised by no arm of `exec`. Safe. -/
  | notModelled (mnemonic : String)
  /-- `refuse NoSuchChannel`: raised by `QP_NOSUCHCHANNEL`, `RD_RESERVED_0`, `RD_RESERVED_7` (R66, R73, R132). Safe:
  the spec's own outcome. -/
  | noSuchChannel
  /-- `refuse TransportOutcomeNotAdmitted`: raised by `XF_DROP`, `XF_PREFIX1`, `XF_PREFIX2` where `P_XFER_FAULTS` does
  not admit the outcome (R71, R132). Safe: the spec's own outcome. -/
  | transportOutcomeNotAdmitted
deriving DecidableEq, Repr

/-- The state of the block and of the model around it. `params`, `readPort` and `script` are the model's own fields;
all others are named by 10_state.md. -/
structure State where
  /-- The open parameters (R7); no step changes them (log 1). -/
  params   : Params
  /-- `cnt[1..6]` (R20). -/
  cnt      : Counters
  /-- `lastA[2..6]` (R21). -/
  lastA    : PollLevels
  /-- `act[1..3]` (R27). -/
  act      : ActRegs
  /-- `rxbuf`, oldest byte first (R28). -/
  rxbuf    : List Byte
  /-- `rx_n`; `none` is `NONE` (R28). -/
  rxN      : Option Byte
  /-- `wire`, oldest transaction first (R29). -/
  wire     : List Txn
  /-- `bus_log`, oldest entry first (R30). -/
  busLog   : List Txn
  /-- `act_log`, oldest entry first (R30). -/
  actLog   : List ActEntry
  /-- The value the read port returned last, with its channel (R83; log 7). -/
  readPort : Option (Chan × Count)
  /-- The events still to come, next first: the event script (R75, D23; log 4). -/
  script   : List Event
deriving DecidableEq, Repr

/-- The state right after `POWERUP` (R151, R34) with the parameters of `Config` and `P_LASTA_INIT` at its default
`SAMPLE`: counters 0, `lastA` the levels sampled, actuators `UNSET`, buffers, wire and logs empty. -/
def State.reset : State where
  params   := Config.params
  cnt      := ⟨0, 0, 0, 0, 0, 0⟩
  lastA    := Config.powerUpLines
  act      := ⟨none, none, none⟩
  rxbuf    := []
  rxN      := none
  wire     := []
  busLog   := []
  actLog   := []
  readPort := none
  script   := []

end Sys2Proof.Machine
end

