-- ==== Sys2Proof/Machine/Ops.lean ====
section
/-! DEFINITION. The named operations on the state: one update per field, the accessors of the registers, and the
primitives of R9 (`cnt[k]`, `lastA[k]`, `act[m]`, `RxAvail`, `RxRead`, `BusTx`, `ActCmd`, `log`). The block takes no
exception and returns from none (R9, R135, R136), so no operation for that stands here. -/

namespace Sys2Proof

/-! ## Polled channels -/

/-- A polled channel as a channel (R2). -/
def PollChan.chan : PollChan → Chan
  | .e2 => .e2
  | .e3 => .e3
  | .e4 => .e4
  | .e5 => .e5
  | .e6 => .e6

/-- `lastA[k]` (R21). -/
def PollLevels.get (l : PollLevels) : PollChan → Level
  | .e2 => l.a2
  | .e3 => l.a3
  | .e4 => l.a4
  | .e5 => l.a5
  | .e6 => l.a6

/-- `lastA[k] <- v`. -/
def PollLevels.set (l : PollLevels) (k : PollChan) (v : Level) : PollLevels :=
  match k with
  | .e2 => { l with a2 := v }
  | .e3 => { l with a3 := v }
  | .e4 => { l with a4 := v }
  | .e5 => { l with a5 := v }
  | .e6 => { l with a6 := v }

/-- All five levels 0 (R150, `ZERO`). -/
def PollLevels.zero : PollLevels := ⟨false, false, false, false, false⟩

end Sys2Proof

namespace Sys2Proof.Machine

/-! ## One update per field -/

def State.withCnt (s : State) (c : Counters) : State := { s with cnt := c }
def State.withLastA (s : State) (l : PollLevels) : State := { s with lastA := l }
def State.withAct (s : State) (a : ActRegs) : State := { s with act := a }
/-- `rxbuf` and `rx_n` together: the receive state of the slave. -/
def State.withRx (s : State) (buf : List Byte) (n : Option Byte) : State := { s with rxbuf := buf, rxN := n }
def State.withWire (s : State) (w : List Txn) : State := { s with wire := w }
def State.withBusLog (s : State) (l : List Txn) : State := { s with busLog := l }
def State.withActLog (s : State) (l : List ActEntry) : State := { s with actLog := l }
def State.withReadPort (s : State) (v : Option (Chan × Count)) : State := { s with readPort := v }
def State.withScript (s : State) (es : List Event) : State := { s with script := es }

/-! ## Registers by number -/

/-- `cnt[k]` (R20). -/
def Counters.get (c : Counters) : Chan → Count
  | .e1 => c.c1
  | .e2 => c.c2
  | .e3 => c.c3
  | .e4 => c.c4
  | .e5 => c.c5
  | .e6 => c.c6

/-- `cnt[k] <- v`. -/
def Counters.set (c : Counters) (k : Chan) (v : Count) : Counters :=
  match k with
  | .e1 => { c with c1 := v }
  | .e2 => { c with c2 := v }
  | .e3 => { c with c3 := v }
  | .e4 => { c with c4 := v }
  | .e5 => { c with c5 := v }
  | .e6 => { c with c6 := v }

/-- All six counters at 0 (R150). -/
def Counters.zero : Counters := ⟨0, 0, 0, 0, 0, 0⟩

/-- `act[m]` as it is stored, `none` for `UNSET` (R27). -/
def ActRegs.get (a : ActRegs) : Motor → Option ActCommand
  | .m1 => a.m1
  | .m2 => a.m2
  | .m3 => a.m3

/-- `act[m] <- c`. -/
def ActRegs.set (a : ActRegs) (m : Motor) (c : ActCommand) : ActRegs :=
  match m with
  | .m1 => { a with m1 := some c }
  | .m2 => { a with m2 := some c }
  | .m3 => { a with m3 := some c }

/-- All three actuator registers `UNSET` (R150). -/
def ActRegs.unset : ActRegs := ⟨none, none, none⟩

/-- An observation of `act[m]`: its value, or `fault UnsetActuator` while it is `UNSET` (R27, R132). -/
def readAct (m : Motor) (s : State) : Host.Outcome ActCommand Fault Refusal :=
  match s.act.get m with
  | some c => .next c
  | none => .fault .unsetActuator

/-! ## Counter arithmetic -/

/-- `wrap(v)` for counters of `w` bits: the integer congruent to `v` modulo 2^w in
[−2^(w−1), 2^(w−1) − 1] (R8, R84). -/
def wrap (w : Nat) (v : Int) : Count := Int.bmod v (2 ^ w)

/-- `cnt[k] <- wrap(cnt[k] + d)` (R84). -/
def addCnt (k : Chan) (d : Int) (s : State) : State :=
  s.withCnt (s.cnt.set k (wrap s.params.cntW (s.cnt.get k + d)))

/-! ## The slave's receive buffer -/

/-- `RxAvail()` (R28). -/
def rxAvail (s : State) : Nat := s.rxbuf.length

/-- `RxRead()`: the oldest unread byte and the state without it (R44). On an empty `rxbuf` it does not occur. -/
def rxRead (s : State) : Option (Byte × State) :=
  match s.rxbuf with
  | [] => none
  | b :: rest => some (b, s.withRx rest s.rxN)

/-- The opening of `FR_RECV` (R107): where `rx_n == 3` and exactly 3 bytes are available, three `RxRead()`s in order,
then `rx_n <- NONE`. `none` where it is not enabled (R44, log 13). -/
def rxFrame (s : State) : Option (Byte × Byte × Byte × State) :=
  if s.rxN = some frameLen ∧ rxAvail s = frameLen.toNat then
    match rxRead s with
    | none => none
    | some (m, s1) =>
      match rxRead s1 with
      | none => none
      | some (d, s2) =>
        match rxRead s2 with
        | none => none
        | some (sp, s3) => some (m, d, sp, s3.withRx s3.rxbuf none)
  else none

/-- The loop of `FR_DRAIN` (R108): discard `RxRead()`, at most `n` times. -/
def rxDiscard : Nat → State → State
  | 0, s => s
  | n + 1, s =>
    match rxRead s with
    | none => s
    | some (_, s') => rxDiscard n s'

/-! ## Bus and actuators -/

/-- `BusTx(addr, [b0, b1, b2])` (R102). -/
def busTx (t : Txn) (s : State) : State :=
  (s.withBusLog (s.busLog ++ [t])).withWire (s.wire ++ [t])

/-- `ActCmd(m, mode, s)` (R110): the register takes mode and speed, and the command is logged. -/
def actCmd (m : Motor) (mode : Mode) (sp : Byte) (s : State) : State :=
  (s.withAct (s.act.set m ⟨mode, sp⟩)).withActLog (s.actLog ++ [⟨m, ⟨mode, sp⟩⟩])

end Sys2Proof.Machine
end

