-- ==== Sys2Proof/Machine/Operands.lean ====
section
/-! DEFINITION. The operands of the codec's operations: the transaction a frame makes, and the admission of transport
outcomes (R71). What the bytes stand for is Machine/Protocol.lean's. -/

namespace Sys2Proof.Machine

/-- The transaction for a frame: always addressed to `P_SLAVE_ADDR` (R42, R101). -/
def frameTxn (m d sp : Byte) (s : State) : Txn := ⟨s.params.slaveAddr, m, d, sp⟩

/-- Whether `P_XFER_FAULTS` admits an outcome; `DELIVER` always is (R71). -/
def admitted (f : XferFaults) : XferOutcome → Bool
  | .deliver => true
  | .drop => f.drop
  | .prefix1 => f.prefix1
  | .prefix2 => f.prefix2

end Sys2Proof.Machine
end

