-- ==== Sys2Proof/Machine/FrameCodec.lean ====
section
/-! DEFINITION. The bus frame codec (41_frame_codec.md): `FR_SEND`, `BUS_XFER`, `FR_RECV`, `FR_DRAIN`, and the meaning of
each row of the formats `TX`, `XF`, `RX` and `FR`. A step that is not enabled is no step: the state stays (log 6). -/

namespace Sys2Proof.Machine

/-! ## The operations -/

/-- What an admitted outcome of the transaction `t` leaves on the slave (R104). -/
def deliver (o : XferOutcome) (t : Txn) (s : State) : State :=
  match o with
  | .deliver => s.withRx [t.b0, t.b1, t.b2] (some frameLen)
  | .drop => s
  | .prefix1 => s.withRx [t.b0] (some 1)
  | .prefix2 => s.withRx [t.b0, t.b1] (some 2)

/-- `BUS_XFER(o)` (R104): held while `wire` is empty or a notification is in progress; then refused if `o` is not
admitted (log 12); else the oldest transaction leaves `wire`. -/
def busXfer (o : XferOutcome) (s : State) : Host.Outcome State Fault Refusal :=
  match s.wire, s.rxN with
  | t :: rest, none =>
    if admitted s.params.xferFaults o = true then .next (deliver o t (s.withWire rest))
    else .refused .transportOutcomeNotAdmitted
  | _, _ => .next s

/-- The effect of a received frame (R107): the command to a known actuator, or `silent RangeError`. -/
def applyFrame (m d sp : Byte) (s : State) : State :=
  match motorOfId m with
  | some k => actCmd k (dirdecode d) sp s
  | none => s

/-- `FR_RECV` (R107). -/
def frRecv (s : State) : State :=
  match rxFrame s with
  | some (m, d, sp, s') => applyFrame m d sp s'
  | none => s

/-- `FR_DRAIN` of the notification with byte count `n` (R108, R105); ends in `silent FramingError`. -/
def frDrain (n : Byte) (s : State) : State :=
  if s.rxN = some n ∧ n ≠ frameLen then
    let drained := rxDiscard (rxAvail s) s
    drained.withRx drained.rxbuf none
  else s

/-- `FR_RECV` of the frame `[m, d, sp]` with the effect of that frame's row (R70); not enabled where the frame
received is another one (log 8). -/
def recvRow (m d sp : Byte) (effect : State → State) (s : State) : State :=
  match rxFrame s with
  | some (m', d', sp', s') => if m' = m ∧ d' = d ∧ sp' = sp then effect s' else s
  | none => s

/-! ## `TX` (R68) -/

/-- `FR_SEND`: one transaction to the slave, the bytes as given (R101). -/
def execFrSend (m d sp : Byte) (s : State) : Host.Outcome State Fault Refusal :=
  .next (busTx (frameTxn m d sp s) s)

/-! ## `XF` rows (R71) -/

/-- `XF_DELIVER`. -/
def execXfDeliver (s : State) : Host.Outcome State Fault Refusal := busXfer .deliver s

/-- `XF_DROP`. -/
def execXfDrop (s : State) : Host.Outcome State Fault Refusal := busXfer .drop s

/-- `XF_PREFIX1`. -/
def execXfPrefix1 (s : State) : Host.Outcome State Fault Refusal := busXfer .prefix1 s

/-- `XF_PREFIX2`. -/
def execXfPrefix2 (s : State) : Host.Outcome State Fault Refusal := busXfer .prefix2 s

/-! ## `RX` rows (R69) -/

/-- `FR_RECV` (R107). -/
def execFrRecv (s : State) : Host.Outcome State Fault Refusal := .next (frRecv s)

/-- `FR_DRAIN` (R108). -/
def execFrDrain (n : Byte) (s : State) : Host.Outcome State Fault Refusal := .next (frDrain n s)

/-! ## `FR` rows (R70): `FR_RECV` of one frame, its effect written from the row -/

/-- `FRX_FWD_M1`: `act[1] <- (FWD, byte2)`. -/
def execFrxFwdM1 (sp : Byte) (s : State) : Host.Outcome State Fault Refusal :=
  .next (recvRow (motorId .m1) dirFwd sp (actCmd .m1 .fwd sp) s)

/-- `FRX_BWD_M1`: `act[1] <- (BWD, byte2)`. -/
def execFrxBwdM1 (sp : Byte) (s : State) : Host.Outcome State Fault Refusal :=
  .next (recvRow (motorId .m1) dirBwd sp (actCmd .m1 .bwd sp) s)

/-- `FRX_STOP_M1`: `act[1] <- (STOP, byte2)`. -/
def execFrxStopM1 (d sp : Byte) (s : State) : Host.Outcome State Fault Refusal :=
  .next (recvRow (motorId .m1) d sp (actCmd .m1 .stop sp) s)

/-- `FRX_FWD_M2`: `act[2] <- (FWD, byte2)`. -/
def execFrxFwdM2 (sp : Byte) (s : State) : Host.Outcome State Fault Refusal :=
  .next (recvRow (motorId .m2) dirFwd sp (actCmd .m2 .fwd sp) s)

/-- `FRX_BWD_M2`: `act[2] <- (BWD, byte2)`. -/
def execFrxBwdM2 (sp : Byte) (s : State) : Host.Outcome State Fault Refusal :=
  .next (recvRow (motorId .m2) dirBwd sp (actCmd .m2 .bwd sp) s)

/-- `FRX_STOP_M2`: `act[2] <- (STOP, byte2)`. -/
def execFrxStopM2 (d sp : Byte) (s : State) : Host.Outcome State Fault Refusal :=
  .next (recvRow (motorId .m2) d sp (actCmd .m2 .stop sp) s)

/-- `FRX_FWD_M3`: `act[3] <- (FWD, byte2)`. -/
def execFrxFwdM3 (sp : Byte) (s : State) : Host.Outcome State Fault Refusal :=
  .next (recvRow (motorId .m3) dirFwd sp (actCmd .m3 .fwd sp) s)

/-- `FRX_BWD_M3`: `act[3] <- (BWD, byte2)`. -/
def execFrxBwdM3 (sp : Byte) (s : State) : Host.Outcome State Fault Refusal :=
  .next (recvRow (motorId .m3) dirBwd sp (actCmd .m3 .bwd sp) s)

/-- `FRX_STOP_M3`: `act[3] <- (STOP, byte2)`. -/
def execFrxStopM3 (d sp : Byte) (s : State) : Host.Outcome State Fault Refusal :=
  .next (recvRow (motorId .m3) d sp (actCmd .m3 .stop sp) s)

/-- `FRX_IGNORE`: the frame is consumed, no actuator touched; `silent RangeError`. -/
def execFrxIgnore (m d sp : Byte) (s : State) : Host.Outcome State Fault Refusal :=
  .next (recvRow m d sp id s)

end Sys2Proof.Machine
end

