-- ==== Sys2Proof/Machine/Quadrature.lean ====
section
/-! DEFINITION. The quadrature decoder (40_quadrature.md): `QD_EDGE`, `QD_POLL`, `QD_READ`, and the meaning of each
row of the formats `QE`, `QP` and `RD`. -/

namespace Sys2Proof.Machine

/-! ## The operations -/

/-- `QD_EDGE(a, b)` (R80). -/
def qdEdge (a b : Level) (s : State) : State :=
  if a = b then addCnt .e1 1 s else addCnt .e1 (-1) s

/-- `QD_POLL(k, a, b)` for a polled channel (R81). -/
def qdPoll (k : PollChan) (a b : Level) (s : State) : State :=
  if a = s.lastA.get k then s
  else
    let counted := if b = a then addCnt k.chan (-1) s else addCnt k.chan 1 s
    counted.withLastA (counted.lastA.set k a)

/-- `QD_READ(k)` (R83): the value goes to the read port; nothing else changes. -/
def qdRead (k : Chan) (s : State) : State := s.withReadPort (some (k, s.cnt.get k))

/-! ## `QE` rows (R63) -/

/-- `QE_INC_00`: A == B == 0. -/
def execQeInc00 (s : State) : Host.Outcome State Fault Refusal := .next (qdEdge false false s)

/-- `QE_INC_11`: A == B == 1. -/
def execQeInc11 (s : State) : Host.Outcome State Fault Refusal := .next (qdEdge true true s)

/-- `QE_DEC_10`: A = 1, B = 0. -/
def execQeDec10 (s : State) : Host.Outcome State Fault Refusal := .next (qdEdge true false s)

/-- `QE_DEC_01`: A = 0, B = 1. -/
def execQeDec01 (s : State) : Host.Outcome State Fault Refusal := .next (qdEdge false true s)

/-! ## `QP` rows (R64): each is `QD_POLL` on the levels its event samples; `l` is `lastA[k]` of the state (R62, log 8) -/

/-- `QP_HOLD_0`: a poll that samples A = 0, any B. -/
def execQpHold0 (k : PollChan) (b : Level) (s : State) : Host.Outcome State Fault Refusal :=
  .next (qdPoll k false b s)

/-- `QP_HOLD_1`: a poll that samples A = 1, any B. -/
def execQpHold1 (k : PollChan) (b : Level) (s : State) : Host.Outcome State Fault Refusal :=
  .next (qdPoll k true b s)

/-- `QP_INC_010`: a poll that samples A = 1, B = 0. -/
def execQpInc010 (k : PollChan) (s : State) : Host.Outcome State Fault Refusal := .next (qdPoll k true false s)

/-- `QP_INC_101`: a poll that samples A = 0, B = 1. -/
def execQpInc101 (k : PollChan) (s : State) : Host.Outcome State Fault Refusal := .next (qdPoll k false true s)

/-- `QP_DEC_011`: a poll that samples A = 1, B = 1. -/
def execQpDec011 (k : PollChan) (s : State) : Host.Outcome State Fault Refusal := .next (qdPoll k true true s)

/-- `QP_DEC_100`: a poll that samples A = 0, B = 0. -/
def execQpDec100 (k : PollChan) (s : State) : Host.Outcome State Fault Refusal := .next (qdPoll k false false s)

/-- `QP_NOSUCHCHANNEL`: `refuse NoSuchChannel` (R81, R73). -/
def execQpNoSuchChannel (_k : BitVec 3) (_a _b : Level) (_s : State) : Host.Outcome State Fault Refusal :=
  .refused .noSuchChannel

/-! ## `RD` rows (R65, R66) -/

/-- `QD_READ_E1`. -/
def execQdReadE1 (s : State) : Host.Outcome State Fault Refusal := .next (qdRead .e1 s)

/-- `QD_READ_E2`. -/
def execQdReadE2 (s : State) : Host.Outcome State Fault Refusal := .next (qdRead .e2 s)

/-- `QD_READ_E3`. -/
def execQdReadE3 (s : State) : Host.Outcome State Fault Refusal := .next (qdRead .e3 s)

/-- `QD_READ_E4`. -/
def execQdReadE4 (s : State) : Host.Outcome State Fault Refusal := .next (qdRead .e4 s)

/-- `QD_READ_E5`. -/
def execQdReadE5 (s : State) : Host.Outcome State Fault Refusal := .next (qdRead .e5 s)

/-- `QD_READ_E6`. -/
def execQdReadE6 (s : State) : Host.Outcome State Fault Refusal := .next (qdRead .e6 s)

/-- `RD_RESERVED_0`: `refuse NoSuchChannel` (R66). -/
def execRdReserved0 (_s : State) : Host.Outcome State Fault Refusal := .refused .noSuchChannel

/-- `RD_RESERVED_7`: `refuse NoSuchChannel` (R66). -/
def execRdReserved7 (_s : State) : Host.Outcome State Fault Refusal := .refused .noSuchChannel

end Sys2Proof.Machine
end

