-- ==== Sys2Proof/Machine/Reset.lean ====
section
/-! DEFINITION. `RESET` of either node and `POWERUP` (70_reset_and_hazards.md), and the meaning of the rows of the
format `EV`. -/

namespace Sys2Proof.Machine

/-- `RESET(MASTER)` (R150): counters 0, `lastA` by `P_LASTA_INIT`; `wire` and the logs unchanged. -/
def resetMaster (lines : PollLevels) (s : State) : State :=
  (s.withCnt Counters.zero).withLastA
    (match s.params.lastAInit with
     | .sample => lines
     | .zero => PollLevels.zero)

/-- `RESET(SLAVE)` (R150): actuators `UNSET`, receive state empty; `wire` and the logs unchanged. -/
def resetSlave (s : State) : State := (s.withAct ActRegs.unset).withRx [] none

/-- `POWERUP` (R151): both resets, then `wire` and the logs empty. Nothing of `s` survives but its parameters and,
outside the block, its event script; the read port holds no value (log 7). -/
def powerUp (lines : PollLevels) (s : State) : State :=
  ((((resetSlave (resetMaster lines s)).withWire []).withBusLog []).withActLog []).withReadPort none

/-- `RESET_MASTER`. -/
def execResetMaster (lines : PollLevels) (s : State) : Host.Outcome State Fault Refusal := .next (resetMaster lines s)

/-- `RESET_SLAVE`. -/
def execResetSlave (s : State) : Host.Outcome State Fault Refusal := .next (resetSlave s)

end Sys2Proof.Machine
end

