-- ==== Sys2Proof/Machine/Dispatch.lean ====
section
/-! DEFINITION. The meaning of every row of the opcode table: one arm per constructor of `Instr`, in the table's order. -/

namespace Sys2Proof.Machine

def exec (i : Instr) (s : State) : Host.Outcome State Fault Refusal :=
  match i with
  | .qeInc00 => Sys2Proof.Machine.execQeInc00 s
  | .qeInc11 => Sys2Proof.Machine.execQeInc11 s
  | .qeDec10 => Sys2Proof.Machine.execQeDec10 s
  | .qeDec01 => Sys2Proof.Machine.execQeDec01 s
  | .qpHold0 k b => Sys2Proof.Machine.execQpHold0 k b s
  | .qpHold1 k b => Sys2Proof.Machine.execQpHold1 k b s
  | .qpInc010 k => Sys2Proof.Machine.execQpInc010 k s
  | .qpInc101 k => Sys2Proof.Machine.execQpInc101 k s
  | .qpDec011 k => Sys2Proof.Machine.execQpDec011 k s
  | .qpDec100 k => Sys2Proof.Machine.execQpDec100 k s
  | .qpNoSuchChannel k a b => Sys2Proof.Machine.execQpNoSuchChannel k a b s
  | .qdReadE1 => Sys2Proof.Machine.execQdReadE1 s
  | .qdReadE2 => Sys2Proof.Machine.execQdReadE2 s
  | .qdReadE3 => Sys2Proof.Machine.execQdReadE3 s
  | .qdReadE4 => Sys2Proof.Machine.execQdReadE4 s
  | .qdReadE5 => Sys2Proof.Machine.execQdReadE5 s
  | .qdReadE6 => Sys2Proof.Machine.execQdReadE6 s
  | .rdReserved0 => Sys2Proof.Machine.execRdReserved0 s
  | .rdReserved7 => Sys2Proof.Machine.execRdReserved7 s
  | .frSend m d sp => Sys2Proof.Machine.execFrSend m d sp s
  | .xfDeliver => Sys2Proof.Machine.execXfDeliver s
  | .xfDrop => Sys2Proof.Machine.execXfDrop s
  | .xfPrefix1 => Sys2Proof.Machine.execXfPrefix1 s
  | .xfPrefix2 => Sys2Proof.Machine.execXfPrefix2 s
  | .frRecv => Sys2Proof.Machine.execFrRecv s
  | .frDrain n => Sys2Proof.Machine.execFrDrain n s
  | .frxFwdM1 sp => Sys2Proof.Machine.execFrxFwdM1 sp s
  | .frxBwdM1 sp => Sys2Proof.Machine.execFrxBwdM1 sp s
  | .frxStopM1 d sp => Sys2Proof.Machine.execFrxStopM1 d sp s
  | .frxFwdM2 sp => Sys2Proof.Machine.execFrxFwdM2 sp s
  | .frxBwdM2 sp => Sys2Proof.Machine.execFrxBwdM2 sp s
  | .frxStopM2 d sp => Sys2Proof.Machine.execFrxStopM2 d sp s
  | .frxFwdM3 sp => Sys2Proof.Machine.execFrxFwdM3 sp s
  | .frxBwdM3 sp => Sys2Proof.Machine.execFrxBwdM3 sp s
  | .frxStopM3 d sp => Sys2Proof.Machine.execFrxStopM3 d sp s
  | .frxIgnore m d sp => Sys2Proof.Machine.execFrxIgnore m d sp s
  | .resetMaster lines => Sys2Proof.Machine.execResetMaster lines s
  | .resetSlave => Sys2Proof.Machine.execResetSlave s

end Sys2Proof.Machine
end

