-- ==== Sys2Proof/WellFormed.lean ====
section
/-! DEFINITION. Which terms of `Instr` are rows that a decode key can select: the operands of a lower-priority row
must not be those of a row before it (R69, R70, R73). -/

namespace Sys2Proof

/-- A select that names no polled channel: 0, 1 or 7 (R73). -/
abbrev selectsNoPollChannel (k : BitVec 3) : Bool := k == 0 || k == 1 || k == 7

/-- A direction byte that the forward and backward rows leave to the stop row: 0 or 3..255 (R70). -/
abbrev decodesAsStop (d : Byte) : Bool := d != Machine.dirFwd && d != Machine.dirBwd

/-- A motor byte that names none of the slave's actuators: 0 or 4..255 (R41). -/
abbrev namesNoActuator (m : Byte) : Bool := (Machine.motorOfId m).isNone

/-- The well-formed rows. -/
def Instr.wellFormed : Instr → Bool
  | .qeInc00 => true
  | .qeInc11 => true
  | .qeDec10 => true
  | .qeDec01 => true
  | .qpHold0 _ _ => true
  | .qpHold1 _ _ => true
  | .qpInc010 _ => true
  | .qpInc101 _ => true
  | .qpDec011 _ => true
  | .qpDec100 _ => true
  | .qpNoSuchChannel k _ _ => selectsNoPollChannel k
  | .qdReadE1 => true
  | .qdReadE2 => true
  | .qdReadE3 => true
  | .qdReadE4 => true
  | .qdReadE5 => true
  | .qdReadE6 => true
  | .rdReserved0 => true
  | .rdReserved7 => true
  | .frSend _ _ _ => true
  | .xfDeliver => true
  | .xfDrop => true
  | .xfPrefix1 => true
  | .xfPrefix2 => true
  | .frRecv => true
  | .frDrain n => n != Machine.frameLen
  | .frxFwdM1 _ => true
  | .frxBwdM1 _ => true
  | .frxStopM1 d _ => decodesAsStop d
  | .frxFwdM2 _ => true
  | .frxBwdM2 _ => true
  | .frxStopM2 d _ => decodesAsStop d
  | .frxFwdM3 _ => true
  | .frxBwdM3 _ => true
  | .frxStopM3 d _ => decodesAsStop d
  | .frxIgnore m _ _ => namesNoActuator m
  | .resetMaster _ => true
  | .resetSlave => true

end Sys2Proof
end

