-- ==== Sys2Proof/Decode.lean ====
section
/-! DEFINITION. The decoder of the block's events, written from the tables of 30_encoding.md, its encoder, and the
reading of a raw word. A decode key is the bits a table of 30_encoding.md is indexed with; the tables are total (R73),
so a key always decodes; a raw word that is no key of its format is rejected by name. -/

namespace Sys2Proof

/-- The nine formats of R60. -/
inductive Format where
  | qe | qp | rd | tx | xf | rx | fr | ev | ps
deriving DecidableEq, Repr

/-- The width of a format's decode key (R60). -/
def Format.width : Format → Nat
  | .qe => 2
  | .qp => 3
  | .rd => 3
  | .tx => 24
  | .xf => 2
  | .rx => 8
  | .fr => 24
  | .ev => 1
  | .ps => 10

/-- A decode key with what is sampled beside it: the channel select of a poll (R62) and the levels that a reset
samples (R31, R150). -/
inductive Key where
  /-- `ab`. -/
  | qe (ab : BitVec 2)
  /-- Channel select `k` and `lab`, `l` being `lastA[k]` (R62); for a `k` outside 2..6 there is no `l`. -/
  | qp (k : BitVec 3) (lab : BitVec 3)
  | rd (k : BitVec 3)
  /-- `mmmmmmmm dddddddd ssssssss`. -/
  | tx (f : BitVec 24)
  | xf (o : BitVec 2)
  /-- The byte count. -/
  | rx (n : BitVec 8)
  /-- Byte 0, byte 1, byte 2 of the frame. -/
  | fr (f : BitVec 24)
  /-- `t`, and the levels of A2 to A6, which only `RESET(MASTER)` samples. -/
  | ev (t : BitVec 1) (lines : PollLevels)
deriving DecidableEq, Repr

/-- The format a key belongs to. -/
def Key.format : Key → Format
  | .qe _ => .qe
  | .qp _ _ => .qp
  | .rd _ => .rd
  | .tx _ => .tx
  | .xf _ => .xf
  | .rx _ => .rx
  | .fr _ => .fr
  | .ev _ _ => .ev

/-- A key's bits as a number, bit 0 the least significant. -/
def Key.word : Key → Nat
  | .qe ab => ab.toNat
  | .qp _ lab => lab.toNat
  | .rd k => k.toNat
  | .tx f => f.toNat
  | .xf o => o.toNat
  | .rx n => n.toNat
  | .fr f => f.toNat
  | .ev t _ => t.toNat

/-! ## Fields -/

/-- The pair of levels `ab`, `a` in bit 1 (R60). -/
def packAB (a b : Level) : BitVec 2 := BitVec.ofBool a ++ BitVec.ofBool b

/-- The poll key `lab`, `l` in bit 2 (R60). -/
def packLAB (l : Level) (ab : BitVec 2) : BitVec 3 := BitVec.ofBool l ++ ab

/-- The channel select of a polled channel: its number (R62). -/
def PollChan.sel : PollChan → BitVec 3
  | .e2 => 2
  | .e3 => 3
  | .e4 => 4
  | .e5 => 5
  | .e6 => 6

/-- The polled channel a select names, if any (R73). -/
def PollChan.ofSel (k : BitVec 3) : Option PollChan :=
  if k = 2 then some .e2
  else if k = 3 then some .e3
  else if k = 4 then some .e4
  else if k = 5 then some .e5
  else if k = 6 then some .e6
  else none

/-- Every line low: what a reset that samples no line carries. -/
def PollLevels.low : PollLevels := ⟨false, false, false, false, false⟩

/-! ## The decode tables -/

/-- R63. -/
def decodeQE (ab : BitVec 2) : Instr :=
  if ab = 0b00#2 then .qeInc00
  else if ab = 0b11#2 then .qeInc11
  else if ab = 0b10#2 then .qeDec10
  else .qeDec01

/-- R64, for a polled channel; the rows in the table's order. -/
def decodeQPRow (k : PollChan) (lab : BitVec 3) : Instr :=
  if lab &&& 0b110#3 = 0b000#3 then .qpHold0 k (lab.getLsbD 0)
  else if lab &&& 0b110#3 = 0b110#3 then .qpHold1 k (lab.getLsbD 0)
  else if lab = 0b010#3 then .qpInc010 k
  else if lab = 0b101#3 then .qpInc101 k
  else if lab = 0b011#3 then .qpDec011 k
  else .qpDec100 k

/-- R64 and, for a select outside 2..6, R73. -/
def decodeQP (k lab : BitVec 3) : Instr :=
  match PollChan.ofSel k with
  | some c => decodeQPRow c lab
  | none => .qpNoSuchChannel k (lab.getLsbD 1) (lab.getLsbD 0)

/-- R65 and R66. -/
def decodeRD (k : BitVec 3) : Instr :=
  if k = 0b001#3 then .qdReadE1
  else if k = 0b010#3 then .qdReadE2
  else if k = 0b011#3 then .qdReadE3
  else if k = 0b100#3 then .qdReadE4
  else if k = 0b101#3 then .qdReadE5
  else if k = 0b110#3 then .qdReadE6
  else if k = 0b000#3 then .rdReserved0
  else .rdReserved7

/-- R68: every 24-bit value is a send request. -/
def decodeTX (f : BitVec 24) : Instr := .frSend (frameByte0 f) (frameByte1 f) (frameByte2 f)

/-- R71. -/
def decodeXF (o : BitVec 2) : Instr :=
  if o = 0b00#2 then .xfDeliver
  else if o = 0b01#2 then .xfDrop
  else if o = 0b10#2 then .xfPrefix1
  else .xfPrefix2

/-- R69: first match wins. -/
def decodeRX (n : BitVec 8) : Instr :=
  if n = Machine.frameLen then .frRecv else .frDrain n

/-- R70: the first row whose `F & mask == match` selects the outcome; a match is the frame of the row's id and
direction with the other bytes 0. -/
def decodeFR (f : BitVec 24) : Instr :=
  if f &&& 0xFFFF00#24 = packFrame (Machine.motorId .m1) Machine.dirFwd 0 then .frxFwdM1 (frameByte2 f)
  else if f &&& 0xFFFF00#24 = packFrame (Machine.motorId .m1) Machine.dirBwd 0 then .frxBwdM1 (frameByte2 f)
  else if f &&& 0xFF0000#24 = packFrame (Machine.motorId .m1) 0 0 then .frxStopM1 (frameByte1 f) (frameByte2 f)
  else if f &&& 0xFFFF00#24 = packFrame (Machine.motorId .m2) Machine.dirFwd 0 then .frxFwdM2 (frameByte2 f)
  else if f &&& 0xFFFF00#24 = packFrame (Machine.motorId .m2) Machine.dirBwd 0 then .frxBwdM2 (frameByte2 f)
  else if f &&& 0xFF0000#24 = packFrame (Machine.motorId .m2) 0 0 then .frxStopM2 (frameByte1 f) (frameByte2 f)
  else if f &&& 0xFFFF00#24 = packFrame (Machine.motorId .m3) Machine.dirFwd 0 then .frxFwdM3 (frameByte2 f)
  else if f &&& 0xFFFF00#24 = packFrame (Machine.motorId .m3) Machine.dirBwd 0 then .frxBwdM3 (frameByte2 f)
  else if f &&& 0xFF0000#24 = packFrame (Machine.motorId .m3) 0 0 then .frxStopM3 (frameByte1 f) (frameByte2 f)
  else .frxIgnore (frameByte0 f) (frameByte1 f) (frameByte2 f)

/-- R72. -/
def decodeEV (t : BitVec 1) (lines : PollLevels) : Instr :=
  if t = 0b0#1 then .resetMaster lines else .resetSlave

/-- The row a decode key selects: "each key value selects exactly one row" (R73). -/
def decode : Key → Instr
  | .qe ab => decodeQE ab
  | .qp k lab => decodeQP k lab
  | .rd k => decodeRD k
  | .tx f => decodeTX f
  | .xf o => decodeXF o
  | .rx n => decodeRX n
  | .fr f => decodeFR f
  | .ev t lines => decodeEV t lines

/-! ## The encoder -/

/-- The decode key of a row, from the same tables. -/
def encode : Instr → Key
  | .qeInc00 => .qe 0b00
  | .qeInc11 => .qe 0b11
  | .qeDec10 => .qe 0b10
  | .qeDec01 => .qe 0b01
  | .qpHold0 k b => .qp k.sel (packLAB false (packAB false b))
  | .qpHold1 k b => .qp k.sel (packLAB true (packAB true b))
  | .qpInc010 k => .qp k.sel 0b010
  | .qpInc101 k => .qp k.sel 0b101
  | .qpDec011 k => .qp k.sel 0b011
  | .qpDec100 k => .qp k.sel 0b100
  | .qpNoSuchChannel k a b => .qp k (packLAB false (packAB a b))
  | .qdReadE1 => .rd 0b001
  | .qdReadE2 => .rd 0b010
  | .qdReadE3 => .rd 0b011
  | .qdReadE4 => .rd 0b100
  | .qdReadE5 => .rd 0b101
  | .qdReadE6 => .rd 0b110
  | .rdReserved0 => .rd 0b000
  | .rdReserved7 => .rd 0b111
  | .frSend m d sp => .tx (packFrame m d sp)
  | .xfDeliver => .xf 0b00
  | .xfDrop => .xf 0b01
  | .xfPrefix1 => .xf 0b10
  | .xfPrefix2 => .xf 0b11
  | .frRecv => .rx Machine.frameLen
  | .frDrain n => .rx n
  | .frxFwdM1 sp => .fr (packFrame (Machine.motorId .m1) Machine.dirFwd sp)
  | .frxBwdM1 sp => .fr (packFrame (Machine.motorId .m1) Machine.dirBwd sp)
  | .frxStopM1 d sp => .fr (packFrame (Machine.motorId .m1) d sp)
  | .frxFwdM2 sp => .fr (packFrame (Machine.motorId .m2) Machine.dirFwd sp)
  | .frxBwdM2 sp => .fr (packFrame (Machine.motorId .m2) Machine.dirBwd sp)
  | .frxStopM2 d sp => .fr (packFrame (Machine.motorId .m2) d sp)
  | .frxFwdM3 sp => .fr (packFrame (Machine.motorId .m3) Machine.dirFwd sp)
  | .frxBwdM3 sp => .fr (packFrame (Machine.motorId .m3) Machine.dirBwd sp)
  | .frxStopM3 d sp => .fr (packFrame (Machine.motorId .m3) d sp)
  | .frxIgnore m d sp => .fr (packFrame m d sp)
  | .resetMaster lines => .ev 0b0 lines
  | .resetSlave => .ev 0b1 PollLevels.low

/-- The keys in which nothing stands that their event does not have: `l` only where `lastA[k]` exists, sampled levels
only for `RESET(MASTER)`. -/
def Key.canonical : Key → Bool
  | .qe _ => true
  | .qp k lab => (PollChan.ofSel k).isSome || !lab.getLsbD 2
  | .rd _ => true
  | .tx _ => true
  | .xf _ => true
  | .rx _ => true
  | .fr _ => true
  | .ev t lines => t == 0b0#1 || lines == PollLevels.low

/-! ## Raw words -/

/-- Why a raw word is no decode key. -/
inductive DecodeError where
  /-- A bit above the format's width is set. -/
  | bitsAboveWidth (f : Format)
  /-- `PS` is a pseudo-event: it has no row and expands to five polls (R75). -/
  | pseudoEvent
  /-- No format of R60 has a word of so many bits (`decodeTableWord`). -/
  | noFormatOfWidth (nbits : Nat)
deriving DecidableEq, Repr

/-- The key that `w` is in format `f`; a poll takes its channel select from `k`, a reset its levels from `lines`. -/
def keyOfWord (f : Format) (k : BitVec 3) (lines : PollLevels) (w : Nat) : Except DecodeError Key :=
  if 2 ^ f.width ≤ w then .error (.bitsAboveWidth f)
  else match f with
    | .qe => .ok (.qe (BitVec.ofNat 2 w))
    | .qp => .ok (.qp k (BitVec.ofNat 3 w))
    | .rd => .ok (.rd (BitVec.ofNat 3 w))
    | .tx => .ok (.tx (BitVec.ofNat 24 w))
    | .xf => .ok (.xf (BitVec.ofNat 2 w))
    | .rx => .ok (.rx (BitVec.ofNat 8 w))
    | .fr => .ok (.fr (BitVec.ofNat 24 w))
    | .ev => .ok (.ev (BitVec.ofNat 1 w) lines)
    | .ps => .error .pseudoEvent

/-- The row that `w` is in format `f`, or why it is none. -/
def decodeWord (f : Format) (k : BitVec 3) (lines : PollLevels) (w : Nat) : Except DecodeError Instr :=
  match keyOfWord f k lines w with
  | .ok key => .ok (decode key)
  | .error e => .error e

/-- The format in which a word of the opcode table is read when only its width is known. The table's words do not
carry their format (R60, D21: the packing is notation), and one word stands for up to six rows; this is the model's
one choice of reading for each word (log 10). -/
def tableFormat (nbits w : Nat) : Except DecodeError Format :=
  if nbits = 1 then .ok .ev
  else if nbits = 2 then .ok .qe
  else if nbits = 3 then .ok .rd
  else if nbits = 8 then .ok (if w < 4 then .qe else if w < 8 then .rd else .rx)
  else if nbits = 24 then .ok .fr
  else .error (.noFormatOfWidth nbits)

/-- The key of a word of the opcode table. -/
def keyOfTableWord (nbits w : Nat) : Except DecodeError Key :=
  match tableFormat nbits w with
  | .ok f => keyOfWord f 0 PollLevels.low w
  | .error e => .error e

/-- The row the decoder reads from a word of `nbits` bits of the opcode table (log 10). -/
def decodeTableWord (nbits w : Nat) : Option Instr :=
  match keyOfTableWord nbits w with
  | .ok key => some (decode key)
  | .error _ => none

end Sys2Proof
end

