-- ==== Sys2Proof/Machine/Fetch.lean ====
section
/-! DEFINITION. How an event becomes a decode key: the next event of the script, the expansion of a poll pass, and the
bits of a key that are state (`lastA[k]`, `rx_n`, the received frame). Beside it, the placing of a key so that the
next step decodes it (`State.withFetchWord` calls it). -/

namespace Sys2Proof.Machine

/-- The levels `a`, `b` of the `i`-th pair of a poll pass, counted from the right: `a6 b6` is pair 0 (R60, log 11). -/
def passPair (w : BitVec 10) (i : Nat) : BitVec 2 := w.extractLsb' (2 * i) 2

/-- The five polls of a pass, in the order 2 to 6 (R82, R75). -/
def passEvents (w : BitVec 10) : List Event :=
  [.qp 2 (passPair w 4), .qp 3 (passPair w 3), .qp 4 (passPair w 2), .qp 5 (passPair w 1), .qp 6 (passPair w 0)]

/-- A pseudo-event's expansion; every other event stands for itself (R75). -/
def expandEvent : Event → List Event
  | .qe ab => [.qe ab]
  | .qp k ab => [.qp k ab]
  | .rd k => [.rd k]
  | .tx f => [.tx f]
  | .xf o => [.xf o]
  | .rx => [.rx]
  | .fr => [.fr]
  | .ev t lines => [.ev t lines]
  | .ps w => passEvents w

/-- `lastA[k]` for the decode key of a poll; a select outside 2..6 has none (R62). -/
def keyLevel (k : BitVec 3) (s : State) : Level :=
  match PollChan.ofSel k with
  | some c => s.lastA.get c
  | none => false

/-- The decode key of an event in a state (R60, R62, R69, R70). `none`: the slave's receive step is not enabled
(no notification in progress, or, for its `FR` reading, none of exactly three bytes), or the event is a pass. -/
def keyOf (s : State) : Event → Option Key
  | .qe ab => some (.qe ab)
  | .qp k ab => some (.qp k (packLAB (keyLevel k s) ab))
  | .rd k => some (.rd k)
  | .tx f => some (.tx f)
  | .xf o => some (.xf o)
  | .rx =>
    match s.rxN with
    | some n => some (.rx n)
    | none => none
  | .fr =>
    match rxFrame s with
    | some (m, d, sp, _) => some (.fr (packFrame m d sp))
    | none => none
  | .ev t lines => some (.ev t lines)
  | .ps _ => none

/-- What the next event gives to decode, and the state without that event in the script. No event: nothing to decode
and nothing changes (log 5). An event whose step is not enabled is passed over (log 6). -/
def fetch (s : State) : Option Key × State :=
  match s.script with
  | [] => (none, s)
  | e :: rest =>
    match expandEvent e with
    | [] => (none, s.withScript rest)
    | e' :: more => (keyOf s e', s.withScript (more ++ rest))

/-- The state `s` with the event of `key` next in the script and the state part of the key in place: `lastA[k]` for
a poll, the notification for `RX` (its bytes 0) and `FR` (log 18). -/
def placeKey (key : Key) (s : State) : State :=
  match key with
  | .qe ab => s.withScript (.qe ab :: s.script)
  | .qp k lab =>
    let s' := s.withScript (.qp k (lab.extractLsb' 0 2) :: s.script)
    match PollChan.ofSel k with
    | some c => s'.withLastA (s'.lastA.set c (lab.getLsbD 2))
    | none => s'
  | .rd k => s.withScript (.rd k :: s.script)
  | .tx f => s.withScript (.tx f :: s.script)
  | .xf o => s.withScript (.xf o :: s.script)
  | .rx n => (s.withScript (.rx :: s.script)).withRx (List.replicate n.toNat 0) (some n)
  | .fr f =>
    (s.withScript (.fr :: s.script)).withRx [frameByte0 f, frameByte1 f, frameByte2 f] (some frameLen)
  | .ev t lines => s.withScript (.ev t lines :: s.script)

/-- The state `s` set up so that the next step decodes the opcode-table word `w` as `decodeTableWord` does; a word
that is no key leaves `s` as it is (log 10, log 18). -/
def placeTableWord (s : State) (nbits w : Nat) : State :=
  match keyOfTableWord nbits w with
  | .ok key => placeKey key s
  | .error _ => s

end Sys2Proof.Machine
end

