-- ==== Sys2Proof/Machine/Step.lean ====
section
/-! DEFINITION. One step: the next event is decoded and executed. -/

namespace Sys2Proof.Machine

/-- One atomic step (R10): `exec` of the row the next event decodes to, on the state without that event in the script;
where there is nothing to decode, no agent takes a step. A refusal gives no state to go on from (log 26). -/
def step (s : State) : Host.Outcome State Fault Refusal :=
  match fetch s with
  | (some key, s') => exec (decode key) s'
  | (none, s') => .next s'

/-- `s` with an opcode-table word placed so that the very next step runs it. -/
def State.withFetchWord (s : State) (nbits w : Nat) : State := placeTableWord s nbits w

end Sys2Proof.Machine
end

