-- ==== Sys2Proof/Machine/Flags.lean ====
section
/-! DEFINITION. The block has no flags and no error register (R33, R131). What the spec gives instead is the class in
which an operation ends silently (R130): it is named here and recorded nowhere. -/

namespace Sys2Proof.Machine

/-- The error classes of R130 that belong to the block. -/
inductive ErrorClass where
  /-- `FR_RECV` of a frame with an unknown motor id: `silent RangeError`. -/
  | rangeError
  /-- `FR_DRAIN`: `silent FramingError`. -/
  | framingError
  /-- A transaction dropped or shortened by the transport: absorbed (R103). -/
  | transportError
deriving DecidableEq, Repr

/-- The class of a receive step: the unknown motor id of the frame received, if it is `[m, d, sp]` (R107). -/
def frameClass (m d sp : Byte) (s : State) : Option ErrorClass :=
  match rxFrame s with
  | some (m', d', sp', _) =>
    if m' = m ∧ d' = d ∧ sp' = sp ∧ motorOfId m = none then some .rangeError else none
  | none => none

/-- The class of a transport step other than full delivery, where it is enabled and admitted (R103, R104). -/
def xferClass (o : XferOutcome) (s : State) : Option ErrorClass :=
  match s.wire, s.rxN with
  | _ :: _, none => if admitted s.params.xferFaults o = true then some .transportError else none
  | _, _ => none

/-- The class of R130 in which the step of a row ends in a state, if any. -/
def silentClass (i : Instr) (s : State) : Option ErrorClass :=
  match i with
  | .qeInc00 | .qeInc11 | .qeDec10 | .qeDec01 => none
  | .qpHold0 _ _ | .qpHold1 _ _ | .qpInc010 _ | .qpInc101 _ | .qpDec011 _ | .qpDec100 _ => none
  | .qpNoSuchChannel _ _ _ => none
  | .qdReadE1 | .qdReadE2 | .qdReadE3 | .qdReadE4 | .qdReadE5 | .qdReadE6 => none
  | .rdReserved0 | .rdReserved7 => none
  | .frSend _ _ _ => none
  | .xfDeliver => none
  | .xfDrop => xferClass .drop s
  | .xfPrefix1 => xferClass .prefix1 s
  | .xfPrefix2 => xferClass .prefix2 s
  | .frRecv =>
    match rxFrame s with
    | some (m, d, sp, _) => frameClass m d sp s
    | none => none
  | .frDrain n => if s.rxN = some n ∧ n ≠ frameLen then some .framingError else none
  | .frxFwdM1 _ | .frxBwdM1 _ | .frxStopM1 _ _ => none
  | .frxFwdM2 _ | .frxBwdM2 _ | .frxStopM2 _ _ => none
  | .frxFwdM3 _ | .frxBwdM3 _ | .frxStopM3 _ _ => none
  | .frxIgnore m d sp => frameClass m d sp s
  | .resetMaster _ | .resetSlave => none

end Sys2Proof.Machine
end

