-- ==== Sys2Proof/Machine/Script.lean ====
section
/-! DEFINITION. The event-script forms and pseudo-events of R75 and the producer contract of R100: functions that write
event scripts. Then the order in which the master's main context makes its events (R52): a premise on scripts. The
software that keeps it is outside the block (R5). -/

namespace Sys2Proof.Machine

/-- `EDGE a b`. -/
def evEdge (a b : Level) : Event := .qe (packAB a b)

/-- `POLL k a b`. -/
def evPoll (k : PollChan) (a b : Level) : Event := .qp k.sel (packAB a b)

/-- The select of a channel: its number (R65). -/
def readSel : Chan → BitVec 3
  | .e1 => 1
  | .e2 => 2
  | .e3 => 3
  | .e4 => 4
  | .e5 => 5
  | .e6 => 6

/-- `READ k`. -/
def evRead (k : Chan) : Event := .rd (readSel k)

/-- `SEND m d s`. -/
def evSend (m d sp : Byte) : Event := .tx (packFrame m d sp)

/-- The code of a transport outcome (R71). -/
def xferCode : XferOutcome → BitVec 2
  | .deliver => 0b00
  | .drop => 0b01
  | .prefix1 => 0b10
  | .prefix2 => 0b11

/-- `XFER o`. -/
def evXfer (o : XferOutcome) : Event := .xf (xferCode o)

/-- `RECV`. -/
def evRecv : Event := .rx

/-- `RESET MASTER`, with the levels of A2 to A6 at that instant. -/
def evResetMaster (lines : PollLevels) : Event := .ev 0 lines

/-- `RESET SLAVE`. -/
def evResetSlave : Event := .ev 1 PollLevels.low

/-- `PASS` (R75): the levels of A and of B of channels 2 to 6, packed `a2 b2 a3 b3 .. a6 b6`, `a2` in bit 9. -/
def evPass (a b : PollLevels) : Event :=
  .ps (packAB a.a2 b.a2 ++ packAB a.a3 b.a3 ++ packAB a.a4 b.a4 ++ packAB a.a5 b.a5 ++ packAB a.a6 b.a6)

/-- `READALL` (R86): the six reads in the order E1 to E6. -/
def readAll : List Event := [evRead .e1, evRead .e2, evRead .e3, evRead .e4, evRead .e5, evRead .e6]

/-- The direction the producer passes (R100): `f` forward, `b` backward, anything else stop. -/
def dirmap (c : Char) : Byte :=
  if c = 'f' then dirFwd
  else if c = 'b' then dirBwd
  else dirStop

/-- The speed the producer passes (R100): clamped to 0..255; a literal that is no number (`none`) parses as 0. -/
def clampSpeed (speed : Option Int) : Byte := BitVec.ofInt 8 (min (max (speed.getD 0) 0) 255)

/-- The triple that the Motor Router passes to `FR_SEND` for a parsed command, if it passes one (R100). -/
def producer (target : Int) (dirchar : Char) (speed : Option Int) : Option (Byte × Byte × Byte) :=
  if 5 ≤ target ∧ target ≤ 7 then
    some (BitVec.ofInt 8 (target - remoteOffset), dirmap dirchar, clampSpeed speed)
  else none

/-- `CMD target:dirchar:speed` (R75). -/
def cmdEvents (target : Int) (dirchar : Char) (speed : Option Int) : List Event :=
  match producer target dirchar speed with
  | some (m, d, sp) => [evSend m d sp]
  | none => []

/-! ## The main context's loop (R52) -/

/-- One iteration of the loop: the levels its pass samples, the command line it processes, if any, and whether the
telemetry interval has elapsed (R52). -/
structure LoopIteration where
  a         : PollLevels
  b         : PollLevels
  command   : Option (Int × Char × Option Int)
  telemetry : Bool
deriving DecidableEq, Repr

/-- The events of an iteration: a poll pass, then at most one send, then the six reads if it emits telemetry (R52). -/
def LoopIteration.events (it : LoopIteration) : List Event :=
  evPass it.a it.b ::
    ((match it.command with
      | some (target, dirchar, speed) => cmdEvents target dirchar speed
      | none => []) ++
     (if it.telemetry then readAll else []))

/-- Where the main context stands in an iteration: before the poll of a channel, after the pass, after the send, or
in the read-out before the read of a channel. -/
inductive LoopPos where
  | polls (k : PollChan)
  | passed
  | sent
  | reads (k : Chan)
deriving DecidableEq, Repr

/-- The start of an iteration, where the loop begins after `RESET(MASTER)` (R152). -/
def LoopPos.start : LoopPos := .polls .e2

/-- The poll the loop may make next: a new iteration may begin once the pass is done, but not in a read-out. -/
def LoopPos.nextPoll : LoopPos → Option PollChan
  | .polls k => some k
  | .passed => some .e2
  | .sent => some .e2
  | .reads _ => none

/-- The read the loop may make next: a read-out begins after the pass, before or after the send's place. -/
def LoopPos.nextRead : LoopPos → Option Chan
  | .polls _ => none
  | .passed => some .e1
  | .sent => some .e1
  | .reads k => some k

/-- Where the loop stands after the poll of a channel (R82). -/
def afterPoll : PollChan → LoopPos
  | .e2 => .polls .e3
  | .e3 => .polls .e4
  | .e4 => .polls .e5
  | .e5 => .polls .e6
  | .e6 => .passed

/-- Where the loop stands after the read of a channel (R86); the last read ends the iteration. -/
def afterRead : Chan → LoopPos
  | .e1 => .reads .e2
  | .e2 => .reads .e3
  | .e3 => .reads .e4
  | .e4 => .reads .e5
  | .e5 => .reads .e6
  | .e6 => .start

/-- The channel a read select names, if any (R65, R66). -/
def chanOfSel (k : BitVec 3) : Option Chan :=
  if k = readSel .e1 then some .e1
  else if k = readSel .e2 then some .e2
  else if k = readSel .e3 then some .e3
  else if k = readSel .e4 then some .e4
  else if k = readSel .e5 then some .e5
  else if k = readSel .e6 then some .e6
  else none

/-- Where the loop stands after an event, if it may come there. Firings, transport steps, receive steps and resets of
the slave come at any point and leave the loop where it stands; a reset of the master restarts it (R52, R152). -/
def loopNext (p : LoopPos) : Event → Option LoopPos
  | .qe _ => some p
  | .qp k _ =>
    match PollChan.ofSel k with
    | some c => if p.nextPoll = some c then some (afterPoll c) else none
    | none => none
  | .rd k =>
    match chanOfSel k with
    | some c => if p.nextRead = some c then some (afterRead c) else none
    | none => none
  | .tx _ => if p = .passed then some .sent else none
  | .xf _ => some p
  | .rx => some p
  | .fr => some p
  | .ev t _ => if t = 0 then some .start else some p
  | .ps _ => if p.nextPoll = some .e2 then some .passed else none

/-- Where the loop stands after a script, if the script keeps its order. -/
def loopAfter : LoopPos → List Event → Option LoopPos
  | p, [] => some p
  | p, e :: es =>
    match loopNext p e with
    | some q => loopAfter q es
    | none => none

/-- The premise that a script keeps the order of the master's main context (R52), from the start of its loop. The
block's rules do not depend on it; a claim about the surrounding software may assume it (log 21). -/
abbrev InLoopOrder (es : List Event) : Prop := (loopAfter .start es).isSome = true

end Sys2Proof.Machine
end

