-- ==== Sys2Proof/Safety.lean ====
section
/-! DEFINITION. The words the statements use: who issues a row, what a step may leave unchanged, running a script, and
the invariants of the machine. -/

namespace Sys2Proof

/-- The agents that take steps (R11), with the environment's resets on either node (R150). -/
inductive Agent where
  | edgeSource | mainContext | transport | slaveReceive | masterReset | slaveReset
deriving DecidableEq, Repr

/-- The agent that issues a row (R11, R137). -/
def Instr.agent : Instr → Agent
  | .qeInc00 | .qeInc11 | .qeDec10 | .qeDec01 => .edgeSource
  | .qpHold0 _ _ | .qpHold1 _ _ | .qpInc010 _ | .qpInc101 _ | .qpDec011 _ | .qpDec100 _ => .mainContext
  | .qpNoSuchChannel _ _ _ => .mainContext
  | .qdReadE1 | .qdReadE2 | .qdReadE3 | .qdReadE4 | .qdReadE5 | .qdReadE6 => .mainContext
  | .rdReserved0 | .rdReserved7 => .mainContext
  | .frSend _ _ _ => .mainContext
  | .xfDeliver | .xfDrop | .xfPrefix1 | .xfPrefix2 => .transport
  | .frRecv | .frDrain _ => .slaveReceive
  | .frxFwdM1 _ | .frxBwdM1 _ | .frxStopM1 _ _ => .slaveReceive
  | .frxFwdM2 _ | .frxBwdM2 _ | .frxStopM2 _ _ => .slaveReceive
  | .frxFwdM3 _ | .frxBwdM3 _ | .frxStopM3 _ _ => .slaveReceive
  | .frxIgnore _ _ _ => .slaveReceive
  | .resetMaster _ => .masterReset
  | .resetSlave => .slaveReset

/-- The rows that run `QD_EDGE`. -/
def Instr.isEdge : Instr → Bool
  | .qeInc00 | .qeInc11 | .qeDec10 | .qeDec01 => true
  | _ => false

/-- The channel that a row's `QD_POLL` polls, if it is one. -/
def Instr.polls : Instr → Option PollChan
  | .qpHold0 k _ | .qpHold1 k _ | .qpInc010 k | .qpInc101 k | .qpDec011 k | .qpDec100 k => some k
  | _ => none

/-- The row is the reset of the master. -/
def Instr.isResetMaster : Instr → Bool
  | .resetMaster _ => true
  | _ => false

end Sys2Proof

namespace Sys2Proof.Machine

/-! ## Frames -/

/-- The decoder's state is the same: every counter and every stored phase level. -/
structure SameDecoder (s t : State) : Prop where
  cnt   : t.cnt = s.cnt
  lastA : t.lastA = s.lastA

/-- The slave's state is the same: actuator registers, receive state, and the log of its commands. -/
structure SameSlave (s t : State) : Prop where
  act    : t.act = s.act
  rxbuf  : t.rxbuf = s.rxbuf
  rxN    : t.rxN = s.rxN
  actLog : t.actLog = s.actLog

/-- The bus is the same: the transactions under way and the log of those opened. -/
structure SameBus (s t : State) : Prop where
  wire   : t.wire = s.wire
  busLog : t.busLog = s.busLog

/-- The model around the block is the same: the parameters, the script, the value on the read port. -/
structure SameModel (s t : State) : Prop where
  params   : t.params = s.params
  script   : t.script = s.script
  readPort : t.readPort = s.readPort

/-- Counter `k` is the only part of the decoder that may differ. -/
structure SameDecoderBut (k : Chan) (s t : State) : Prop where
  others : ∀ j, j ≠ k → t.cnt.get j = s.cnt.get j
  lastA  : t.lastA = s.lastA

/-- Polled channel `k` is the only part of the decoder that may differ. -/
structure SameDecoderButPoll (k : PollChan) (s t : State) : Prop where
  counters : ∀ j, j ≠ k.chan → t.cnt.get j = s.cnt.get j
  levels   : ∀ j, j ≠ k → t.lastA.get j = s.lastA.get j

/-- Channel 1 has counted the step `δ`; nothing else of the block or the model changes (R80). -/
structure Fired (δ : Int) (s t : State) : Prop where
  counted : t.cnt.get .e1 = wrap s.params.cntW (s.cnt.get .e1 + δ)
  decoder : SameDecoderBut .e1 s t
  slave   : SameSlave s t
  bus     : SameBus s t
  model   : SameModel s t

/-- Polled channel `k` has counted the step `δ` and observed the level `a`; nothing else of the block or the model
changes (R81). -/
structure Polled (k : PollChan) (δ : Int) (a : Level) (s t : State) : Prop where
  counted  : t.cnt.get k.chan = wrap s.params.cntW (s.cnt.get k.chan + δ)
  observed : t.lastA.get k = a
  decoder  : SameDecoderButPoll k s t
  slave    : SameSlave s t
  bus      : SameBus s t
  model    : SameModel s t

/-- The read port returns `cnt[k]`; nothing of the block changes (R83). -/
structure ReadOut (k : Chan) (s t : State) : Prop where
  value   : t.readPort = some (k, s.cnt.get k)
  decoder : SameDecoder s t
  slave   : SameSlave s t
  bus     : SameBus s t
  params  : t.params = s.params
  script  : t.script = s.script

/-- One transaction to the slave has been opened with these bytes; nothing else of the block or the model changes
(R101, R102). -/
structure Sent (m d sp : Byte) (s t : State) : Prop where
  logged  : t.busLog = s.busLog ++ [⟨s.params.slaveAddr, m, d, sp⟩]
  queued  : t.wire = s.wire ++ [⟨s.params.slaveAddr, m, d, sp⟩]
  decoder : SameDecoder s t
  slave   : SameSlave s t
  model   : SameModel s t

/-- Actuator `k` is commanded `(mode, sp)` and the notification is consumed; nothing else of the block or the model
changes (R107, R110). -/
structure Commanded (k : Motor) (mode : Mode) (sp : Byte) (s t : State) : Prop where
  written  : t.act.get k = some ⟨mode, sp⟩
  others   : ∀ j, j ≠ k → t.act.get j = s.act.get j
  logged   : t.actLog = s.actLog ++ [⟨k, ⟨mode, sp⟩⟩]
  consumed : t.rxbuf = [] ∧ t.rxN = none
  decoder  : SameDecoder s t
  bus      : SameBus s t
  model    : SameModel s t

/-- The notification is consumed; nothing else of the block or the model changes (R107, R108). -/
structure OnlyConsumed (s t : State) : Prop where
  act      : t.act = s.act
  actLog   : t.actLog = s.actLog
  consumed : t.rxbuf = [] ∧ t.rxN = none
  decoder  : SameDecoder s t
  bus      : SameBus s t
  model    : SameModel s t

/-- The transaction at the head of `wire` has left it, and the slave holds `buf` as a notification of `n` bytes or
none; nothing else of the block or the model changes (R104). -/
structure Moved (rest : List Txn) (buf : List Byte) (n : Option Byte) (s t : State) : Prop where
  wire    : t.wire = rest
  rxbuf   : t.rxbuf = buf
  rxN     : t.rxN = n
  busLog  : t.busLog = s.busLog
  act     : t.act = s.act
  actLog  : t.actLog = s.actLog
  decoder : SameDecoder s t
  model   : SameModel s t

/-! ## Running -/

/-- `n` steps of the machine. A fault ends the run (R10). That a refusal ends it too is the model's choice (DESIGN
CHOICE, log 26): the spec says only that no step happens and no state changes. -/
def run : Nat → State → Host.Outcome State Fault Refusal
  | 0, s => .next s
  | n + 1, s =>
    match step s with
    | .next t => run n t
    | .fault r => .fault r
    | .refused r => .refused r

/-- The events `es` are taken from `s`, one step each; none of them is a pass, which takes five. -/
def runEvents (es : List Event) (s : State) : Host.Outcome State Fault Refusal := run es.length (s.withScript es)

/-- A firing or a poll samples a pair of levels (A, B). -/
abbrev Sample := Level × Level

/-- The net sum of R85: for each sample, 0 where A is as last observed, −1 where A changed and B == A, +1 where A
changed and B ≠ A. -/
def pollSum : Level → List Sample → Int
  | _, [] => 0
  | l, (a, b) :: rest => (if a = l then 0 else if b = a then -1 else 1) + pollSum a rest

/-- The level of A observed last: that of the last sample, or `l` where there is none (R85). -/
def lastObserved (l : Level) (samples : List Sample) : Level :=
  match samples.getLast? with
  | some (a, _) => a
  | none => l

/-- The net sum of R87: the firings with A == B less those with A ≠ B. -/
def edgeSum (samples : List Sample) : Int :=
  (samples.countP fun p => p.1 == p.2 : Nat) - (samples.countP fun p => p.1 != p.2 : Nat)

/-- 2j + 1 firings of one bouncing transition to level `a` with B stable: each samples the level A had just after its
own edge (R158). -/
def bounce (a b : Level) : Nat → List Event
  | 0 => [evEdge a b]
  | j + 1 => evEdge a b :: evEdge (!a) b :: bounce a b j

/-- An event that may come during a read-out (R86): every step but a poll, which runs in the main context that reads
(R52), and a reset of the master. Sends are admitted although the main context makes them as well (log 21). -/
inductive DuringReadOut : Event → Prop where
  | firing (a b : Level) : DuringReadOut (evEdge a b)
  | read (k : Chan) : DuringReadOut (evRead k)
  | send (m d sp : Byte) : DuringReadOut (evSend m d sp)
  | xfer (o : XferOutcome) : DuringReadOut (evXfer o)
  | recv : DuringReadOut evRecv
  | recvFrame : DuringReadOut .fr
  | slaveReset (lines : PollLevels) : DuringReadOut (.ev 1 lines)

/-! ## Invariants -/

/-- The range of a counter of `w` bits (R8). -/
abbrev InRange (w : Nat) (v : Count) : Prop := -(2 ^ (w - 1) : Int) ≤ v ∧ v < (2 ^ (w - 1) : Int)

/-- The receive state agrees with itself (R28, R105): no byte without a notification, and its byte count is the number
of bytes available. -/
abbrev RxConsistent (s : State) : Prop :=
  match s.rxN with
  | none => s.rxbuf = []
  | some n => s.rxbuf.length = n.toNat

/-- The last command logged for actuator `m`. -/
def lastCommand (m : Motor) (log : List ActEntry) : Option ActCommand :=
  ((log.filter fun e => e.m == m).getLast?).map ActEntry.cmd

/-- What holds between any two steps. -/
structure BlockInv (s : State) : Prop where
  /-- The parameters are in the ranges of R7. -/
  params    : s.params.Admitted
  /-- Every counter is a `P_CNT_W`-bit signed integer (R20). -/
  cntRange  : ∀ k, InRange s.params.cntW (s.cnt.get k)
  /-- R105. -/
  rx        : RxConsistent s
  /-- `rxbuf` has at most `P_BUS_N` bytes (R28). -/
  rxCap     : s.rxbuf.length ≤ s.params.busN
  /-- The transactions under way are the newest ones sent, in order (R54). -/
  wireSent  : s.wire <:+ s.busLog
  /-- Every transaction is addressed to the slave (R42). -/
  addressed : ∀ t ∈ s.busLog, t.addr = s.params.slaveAddr
  /-- A register that has been written holds the last command logged for it (R27, R110). -/
  actLast   : ∀ m c, s.act.get m = some c → lastCommand m s.actLog = some c

/-- The notification in progress comes from a transaction that was sent, and every command the slave has carried out
was sent as a frame with that motor id, that direction and that speed (R104, R107). -/
structure Traceable (s : State) : Prop where
  wireSent     : ∀ t ∈ s.wire, t ∈ s.busLog
  received     : s.rxN ≠ none → ∃ t ∈ s.busLog, s.rxbuf <+: [t.b0, t.b1, t.b2]
  commandsSent : ∀ e ∈ s.actLog, ∃ t ∈ s.busLog,
    t.b0 = motorId e.m ∧ e.cmd.mode = dirdecode t.b1 ∧ e.cmd.spd = t.b2

/-- The commands carried out, the notification in progress and the transactions under way together are no more than
the transactions opened. -/
def CountsBounded (s : State) : Prop :=
  s.actLog.length + s.rxN.toList.length + s.wire.length ≤ s.busLog.length

/-- The command that a transaction's bytes stand for, if they address an actuator (R107). -/
def Txn.command (t : Txn) : Option ActEntry := (motorOfId t.b0).map fun m => ⟨m, ⟨dirdecode t.b1, t.b2⟩⟩

/-- No transaction is duplicated and none overtakes another (R54): the transactions sent are those that have left the
wire, in order, and then those on it; the commands logged are, in order, among the commands of those that have left it,
each standing for one transaction; and the notification in progress is the last that left, not yet among them. -/
def InOrder (s : State) : Prop :=
  ∃ passed, s.busLog = passed ++ s.wire ∧
    match s.rxN with
    | none => s.actLog.Sublist (passed.filterMap Txn.command)
    | some _ => ∃ earlier x, passed = earlier ++ [x] ∧ s.rxbuf <+: [x.b0, x.b1, x.b2] ∧
        s.actLog.Sublist (earlier.filterMap Txn.command)

end Sys2Proof.Machine
end

