-- ==== Sys2Proof/Certificates/Slice0/Obligations.lean ====
section
/-! DEFINITION. The statements about the block, each from a rule or section of the spec. The block has no memory, no
flags and no program counter (R9, R33), so the frames speak of the counters, the stored levels, the actuator registers,
the receive state, `wire`, the two logs and the model's own three fields. -/

open Sys2Proof Sys2Proof.Machine

/-! ## Encoding -/

/-- 30_encoding.md sections 2 to 5: the key of a well-formed row decodes to that row, with every operand at every
value. -/
def Obligations.EncodeThenDecodeGivesTheRow : Prop :=
  ∀ i : Instr, i.wellFormed = true → decode (encode i) = i

/-- R73: "Every decode in this file is total over its key: each key value selects exactly one row." The row a key
selects is well-formed, and no two canonical keys select the same row. -/
def Obligations.EveryKeySelectsOneWellFormedRow : Prop :=
  ∀ key : Key, (decode key).wellFormed = true ∧ (key.canonical = true → encode (decode key) = key)

/-- Words of every format, written out from the tables of 30_encoding.md, decode to the rows they stand for. -/
def Obligations.WordsOfTheTablesDecode : Prop :=
  decode (.qe 0b10) = .qeDec10 ∧ decode (.qp 4 0b011) = .qpDec011 .e4 ∧ decode (.qp 7 0b000) = .qpNoSuchChannel 7 false false ∧
  decode (.rd 0b110) = .qdReadE6 ∧ decode (.rd 0b111) = .rdReserved7 ∧ decode (.tx 0x020232) = .frSend 2 2 50 ∧
  decode (.xf 0b11) = .xfPrefix2 ∧ decode (.rx 0x03) = .frRecv ∧ decode (.rx 0x02) = .frDrain 2 ∧
  decode (.fr 0x0101C8) = .frxFwdM1 200 ∧ decode (.fr 0x01FF09) = .frxStopM1 255 9 ∧ decode (.fr 0x040164) = .frxIgnore 4 1 100 ∧
  decode (.ev 0b1 PollLevels.low) = .resetSlave

/-- R60 widths: a raw word is a key of its format exactly where it has no bit above the format's width; `PS`, a
pseudo-event, has no key (R75). -/
def Obligations.RawWordsAreKeysWithinTheirWidth : Prop :=
  ∀ (f : Format) (k : BitVec 3) (lines : PollLevels) (w : Nat),
    (2 ^ f.width ≤ w → decodeWord f k lines w = .error (.bitsAboveWidth f)) ∧
    (w < 2 ^ f.width → f ≠ .ps → ∃ i, decodeWord f k lines w = .ok i ∧ i.wellFormed = true) ∧
    (w < 2 ^ f.width → f = .ps → decodeWord f k lines w = .error .pseudoEvent)

/-- R69: the byte count selects the operation, `FR_RECV` for 3 and `FR_DRAIN` for any other. -/
def Obligations.ByteCountSelectsTheReceiveOperation : Prop :=
  ∀ n : Byte, (n = 3 → decode (.rx n) = .frRecv) ∧ (n ≠ 3 → decode (.rx n) = .frDrain n)

/-! ## Steps -/

/-- The model's step (log 4): the next event of the script, if it is no pass and its decode key can be formed, is
decoded and executed on the state without that event; nothing else happens around `exec`. -/
def Obligations.StepRunsTheDecodedRow : Prop :=
  ∀ (s : State) (e : Event) (rest : List Event) (key : Key), (∀ w, e ≠ .ps w) → s.script = e :: rest →
    keyOf s e = some key → step s = exec (decode key) (s.withScript rest)

/-- The model's choices of logs 5 and 6: without an event nothing happens, and a receive step without a notification
is passed over. -/
def Obligations.NoStepWithoutAnEventOrNotification : Prop :=
  ∀ s : State, (s.script = [] → step s = .next s) ∧
    ∀ rest, s.rxN = none → (s.script = .rx :: rest ∨ s.script = .fr :: rest) → step s = .next (s.withScript rest)

/-- Every canonical decode key can be placed so that the very next step runs the row it selects (log 18). -/
def Obligations.EveryKeyCanBePlacedAndRun : Prop :=
  ∀ (key : Key) (s : State), key.canonical = true →
    step (placeKey key s) = exec (decode key) ((placeKey key s).withScript s.script)

/-- R82: one pass event is the five polls of channels 2 to 6 in that order, each with its own samples (the bit order
of the pass is log 11). -/
def Obligations.PassIsTheFivePollsInOrder : Prop :=
  ∀ (s : State) (a b : PollLevels) (rest : List Event),
    run 5 (s.withScript (evPass a b :: rest)) =
      .next ((qdPoll .e6 a.a6 b.a6 (qdPoll .e5 a.a5 b.a5 (qdPoll .e4 a.a4 b.a4
        (qdPoll .e3 a.a3 b.a3 (qdPoll .e2 a.a2 b.a2 s))))).withScript rest)

/-- R82: the order of the polls of different channels "is not observable"; nor is that of a poll and a firing, which
touch disjoint state (R20, R21). -/
def Obligations.DecoderStepsOfDifferentChannelsCommute : Prop :=
  ∀ (s : State) (k j : PollChan) (a b c d : Level), k ≠ j →
    (∃ t, runEvents [evPoll k a b, evPoll j c d] s = .next t ∧ runEvents [evPoll j c d, evPoll k a b] s = .next t) ∧
    (∃ t, runEvents [evEdge c d, evPoll k a b] s = .next t ∧ runEvents [evPoll k a b, evEdge c d] s = .next t)

/-! ## Quadrature decoder -/

/-- R63: the four patterns of `ab`, the row each selects and what it does to `cnt[1]`; nothing else changes. -/
def Obligations.EdgeFiringFollowsItsTable : Prop :=
  ∀ s : State,
    (decode (.qe 0b00) = .qeInc00 ∧ ∃ t, exec .qeInc00 s = .next t ∧ Fired 1 s t) ∧
    (decode (.qe 0b11) = .qeInc11 ∧ ∃ t, exec .qeInc11 s = .next t ∧ Fired 1 s t) ∧
    (decode (.qe 0b10) = .qeDec10 ∧ ∃ t, exec .qeDec10 s = .next t ∧ Fired (-1) s t) ∧
    (decode (.qe 0b01) = .qeDec01 ∧ ∃ t, exec .qeDec01 s = .next t ∧ Fired (-1) s t)

/-- R80 as a step: a firing with levels `a`, `b` counts +1 where a == b and −1 otherwise, whatever came before. -/
def Obligations.EdgeStepCountsByItsTwoLevels : Prop :=
  ∀ (s : State) (a b : Level) (rest : List Event), s.script = evEdge a b :: rest →
    ∃ t, step s = .next t ∧ Fired (if a = b then 1 else -1) (s.withScript rest) t

/-- R64: the eight patterns of `l a b` for every polled channel, the row each selects and what it does to `cnt[k]` and
`lastA[k]`; nothing else changes. -/
def Obligations.PollFollowsItsTable : Prop :=
  ∀ (s : State) (k : PollChan),
    (s.lastA.get k = false →
      (decode (.qp k.sel 0b000) = .qpHold0 k false ∧ exec (.qpHold0 k false) s = .next s) ∧
      (decode (.qp k.sel 0b001) = .qpHold0 k true ∧ exec (.qpHold0 k true) s = .next s) ∧
      (decode (.qp k.sel 0b010) = .qpInc010 k ∧ ∃ t, exec (.qpInc010 k) s = .next t ∧ Polled k 1 true s t) ∧
      (decode (.qp k.sel 0b011) = .qpDec011 k ∧ ∃ t, exec (.qpDec011 k) s = .next t ∧ Polled k (-1) true s t)) ∧
    (s.lastA.get k = true →
      (decode (.qp k.sel 0b110) = .qpHold1 k false ∧ exec (.qpHold1 k false) s = .next s) ∧
      (decode (.qp k.sel 0b111) = .qpHold1 k true ∧ exec (.qpHold1 k true) s = .next s) ∧
      (decode (.qp k.sel 0b101) = .qpInc101 k ∧ ∃ t, exec (.qpInc101 k) s = .next t ∧ Polled k 1 false s t) ∧
      (decode (.qp k.sel 0b100) = .qpDec100 k ∧ ∃ t, exec (.qpDec100 k) s = .next t ∧ Polled k (-1) false s t))

/-- R81 as a step: a poll with A as last observed changes nothing; with A changed it counts +1 where b != a and −1
where b == a and stores the new level. The key bit `l` is read from the state. -/
def Obligations.PollStepComparesWithTheStoredLevel : Prop :=
  ∀ (s : State) (k : PollChan) (a b : Level) (rest : List Event), s.script = evPoll k a b :: rest →
    (a = s.lastA.get k → step s = .next (s.withScript rest)) ∧
    (a ≠ s.lastA.get k →
      ∃ t, step s = .next t ∧ Polled k (if b = a then -1 else 1) a (s.withScript rest) t)

/-- R73, R81: a poll of a select outside 2..6 is `refuse NoSuchChannel`, as a row and as a step. -/
def Obligations.PollOutsideTheChannelsIsRefused : Prop :=
  ∀ (s : State) (k : BitVec 3) (a b : Level), (k = 0 ∨ k = 1 ∨ k = 7) →
    exec (.qpNoSuchChannel k a b) s = .refused .noSuchChannel ∧
    step (s.withScript [.qp k (packAB a b)]) = .refused .noSuchChannel

/-- R65, R66: the eight selects of the read port; 1 to 6 return that channel's counter and change nothing of the
block, 0 and 7 are refused. -/
def Obligations.ReadPortSelectsTheCounter : Prop :=
  ∀ s : State,
    (decode (.rd 0b001) = .qdReadE1 ∧ ∃ t, exec .qdReadE1 s = .next t ∧ ReadOut .e1 s t) ∧
    (decode (.rd 0b010) = .qdReadE2 ∧ ∃ t, exec .qdReadE2 s = .next t ∧ ReadOut .e2 s t) ∧
    (decode (.rd 0b011) = .qdReadE3 ∧ ∃ t, exec .qdReadE3 s = .next t ∧ ReadOut .e3 s t) ∧
    (decode (.rd 0b100) = .qdReadE4 ∧ ∃ t, exec .qdReadE4 s = .next t ∧ ReadOut .e4 s t) ∧
    (decode (.rd 0b101) = .qdReadE5 ∧ ∃ t, exec .qdReadE5 s = .next t ∧ ReadOut .e5 s t) ∧
    (decode (.rd 0b110) = .qdReadE6 ∧ ∃ t, exec .qdReadE6 s = .next t ∧ ReadOut .e6 s t) ∧
    (decode (.rd 0b000) = .rdReserved0 ∧ exec .rdReserved0 s = .refused .noSuchChannel) ∧
    (decode (.rd 0b111) = .rdReserved7 ∧ exec .rdReserved7 s = .refused .noSuchChannel)

/-- R8, R84: `wrap` takes an integer to the one integer congruent to it modulo 2^w in the range of `w` bits. -/
def Obligations.WrapIsTheRepresentativeInRange : Prop :=
  ∀ (w : Nat) (v u : Int), 2 ≤ w →
    InRange w (wrap w v) ∧ ((2 : Int) ^ w ∣ v - wrap w v) ∧
    (InRange w u → (2 : Int) ^ w ∣ v - u → u = wrap w v)

/-- R80 and R81, corner cases on wrapping: a step up from the greatest value gives the least, a step down from the
least gives the greatest, on channel 1 and on every polled channel. -/
def Obligations.CountersWrapAtTheirLimits : Prop :=
  ∀ (s : State) (k : PollChan), 2 ≤ s.params.cntW →
    (s.cnt.get .e1 = 2 ^ (s.params.cntW - 1) - 1 →
      ∃ t, exec .qeInc00 s = .next t ∧ t.cnt.get .e1 = -2 ^ (s.params.cntW - 1)) ∧
    (s.cnt.get .e1 = -2 ^ (s.params.cntW - 1) →
      ∃ t, exec .qeDec10 s = .next t ∧ t.cnt.get .e1 = 2 ^ (s.params.cntW - 1) - 1) ∧
    (s.cnt.get k.chan = 2 ^ (s.params.cntW - 1) - 1 → s.lastA.get k = false →
      ∃ t, exec (.qpInc010 k) s = .next t ∧ t.cnt.get k.chan = -2 ^ (s.params.cntW - 1)) ∧
    (s.cnt.get k.chan = -2 ^ (s.params.cntW - 1) → s.lastA.get k = true →
      ∃ t, exec (.qpDec100 k) s = .next t ∧ t.cnt.get k.chan = 2 ^ (s.params.cntW - 1) - 1)

/-- R85: after any sequence of polls of a channel, its counter is the wrapped sum of the steps of the samples and its
stored level the last one observed; the other channels are as before. -/
def Obligations.PolledNetSum : Prop :=
  ∀ (s : State) (k : PollChan) (samples : List Sample), 2 ≤ s.params.cntW →
    InRange s.params.cntW (s.cnt.get k.chan) →
    ∃ t, runEvents (samples.map fun p => evPoll k p.1 p.2) s = .next t ∧
      t.cnt.get k.chan = wrap s.params.cntW (s.cnt.get k.chan + pollSum (s.lastA.get k) samples) ∧
      t.lastA.get k = lastObserved (s.lastA.get k) samples ∧
      SameDecoderButPoll k s t ∧ SameSlave s t ∧ SameBus s t

/-- R87: after any sequence of firings, `cnt[1]` is the wrapped sum of the firings with A == B less those with
A != B; the other channels are as before. -/
def Obligations.EdgeNetSum : Prop :=
  ∀ (s : State) (samples : List Sample), 2 ≤ s.params.cntW → InRange s.params.cntW (s.cnt.get .e1) →
    ∃ t, runEvents (samples.map fun p => evEdge p.1 p.2) s = .next t ∧
      t.cnt.get .e1 = wrap s.params.cntW (s.cnt.get .e1 + edgeSum samples) ∧
      SameDecoderBut .e1 s t ∧ SameSlave s t ∧ SameBus s t

/-- R88: at an observed A change, the same pair (A, B) is +1 for one variant where it is −1 for the other. -/
def Obligations.VariantsCountWithOppositeSigns : Prop :=
  ∀ (s : State) (k : PollChan) (a b : Level), a ≠ s.lastA.get k →
    ∃ (δ : Int) (t u : State), (δ = 1 ∨ δ = -1) ∧
      step (s.withScript [evEdge a b]) = .next t ∧ Fired δ (s.withScript []) t ∧
      step (s.withScript [evPoll k a b]) = .next u ∧ Polled k (-δ) a (s.withScript []) u

/-- R89: A transitions that revert between two polls are lost: a poll that samples A as last observed changes nothing,
whatever B is, however often it is repeated. -/
def Obligations.RevertedTransitionsAreLost : Prop :=
  ∀ (s : State) (k : PollChan) (bs : List Level),
    runEvents (bs.map fun b => evPoll k (s.lastA.get k) b) s = .next (s.withScript [])

/-- R157: from `lastA[k]` = 0, the sample (1, 1) alone counts −1; had (1, 0) been sampled before it, the two together
would have counted +1. -/
def Obligations.UnderSamplingReversesAStep : Prop :=
  ∀ (s : State) (k : PollChan), s.lastA.get k = false →
    (∃ t, runEvents [evPoll k true true] s = .next t ∧ Polled k (-1) true (s.withScript []) t) ∧
    (∃ t, runEvents [evPoll k true false, evPoll k true true] s = .next t ∧ Polled k 1 true (s.withScript []) t)

/-- R158: 2j + 1 firings of one bouncing transition, B stable and each sample the level just after its own edge, leave
the counters as one firing does. -/
def Obligations.BounceCountsAsOneFiring : Prop :=
  ∀ (s : State) (a b : Level) (j : Nat), ∃ t u, runEvents (bounce a b j) s = .next t ∧
    runEvents [evEdge a b] s = .next u ∧ t.cnt = u.cnt

/-- R86: `READ 1` returns `cnt[1]` at its instant, and every later read of a channel 2 to 6 in the read-out returns that
channel's counter at the same instant, whatever firings, reads, sends, transport steps, receive steps and resets of the
slave come between (polls do not, R52; log 21). The read-out is complete wherever every transport outcome in it is one
that is admitted; an outcome not admitted may be held (log 12), and where it is refused the run ends (log 26). -/
def Obligations.ReadOutIsASnapshot : Prop :=
  ∀ (s : State) (k : PollChan) (es : List Event), (∀ e ∈ es, DuringReadOut e) →
    (∃ t, runEvents [evRead .e1] s = .next t ∧ t.readPort = some (.e1, s.cnt.get .e1)) ∧
    (∀ t, runEvents (evRead .e1 :: es ++ [evRead k.chan]) s = .next t → t.readPort = some (k.chan, s.cnt.get k.chan)) ∧
    ((∀ o, evXfer o ∈ es → admitted s.params.xferFaults o = true) →
      ∃ t, runEvents (evRead .e1 :: es ++ [evRead k.chan]) s = .next t)

/-- R20, R23, R25: a counter changes only by one step of its own channel's operation or to 0 by the master's reset. -/
def Obligations.CountersChangeOnlyByTheirOwnSteps : Prop :=
  ∀ (i : Instr) (s t : State) (k : Chan), exec i s = .next t → t.cnt.get k ≠ s.cnt.get k →
    (i.isResetMaster = true ∧ t.cnt.get k = 0) ∨
    (((i.isEdge = true ∧ k = .e1) ∨ ∃ c, i.polls = some c ∧ k = c.chan) ∧
      (t.cnt.get k = wrap s.params.cntW (s.cnt.get k + 1) ∨ t.cnt.get k = wrap s.params.cntW (s.cnt.get k - 1)))

/-- R21: `lastA[k]` changes only by a poll of that channel or by the master's reset. -/
def Obligations.StoredLevelsChangeOnlyByTheirOwnPolls : Prop :=
  ∀ (i : Instr) (s t : State) (k : PollChan), exec i s = .next t → t.lastA.get k ≠ s.lastA.get k →
    i.isResetMaster = true ∨ i.polls = some k

/-! ## Frame codec -/

/-- R68: every 24-bit value is a send request, and its three bytes go out unchanged, as one transaction to the slave;
nothing else changes. -/
def Obligations.SendTransmitsTheBytesUnchanged : Prop :=
  ∀ (s : State) (m d sp : Byte), decode (.tx (packFrame m d sp)) = .frSend m d sp ∧
    ∃ t, exec (.frSend m d sp) s = .next t ∧ Sent m d sp s t

/-- R71: the four outcome codes, the row each selects, what it leaves on the slave where it is enabled (`wire` not
empty, no notification in progress) and admitted, and its refusal where it is not admitted. -/
def Obligations.TransportOutcomesFollowTheirTable : Prop :=
  ∀ (s : State) (x : Txn) (rest : List Txn), s.wire = x :: rest → s.rxN = none →
    (decode (.xf 0b00) = .xfDeliver ∧
      ∃ t, exec .xfDeliver s = .next t ∧ Moved rest [x.b0, x.b1, x.b2] (some 3) s t) ∧
    (decode (.xf 0b01) = .xfDrop ∧
      (s.params.xferFaults.drop = true → ∃ t, exec .xfDrop s = .next t ∧ Moved rest s.rxbuf none s t) ∧
      (s.params.xferFaults.drop = false → exec .xfDrop s = .refused .transportOutcomeNotAdmitted)) ∧
    (decode (.xf 0b10) = .xfPrefix1 ∧
      (s.params.xferFaults.prefix1 = true → ∃ t, exec .xfPrefix1 s = .next t ∧ Moved rest [x.b0] (some 1) s t) ∧
      (s.params.xferFaults.prefix1 = false → exec .xfPrefix1 s = .refused .transportOutcomeNotAdmitted)) ∧
    (decode (.xf 0b11) = .xfPrefix2 ∧
      (s.params.xferFaults.prefix2 = true → ∃ t, exec .xfPrefix2 s = .next t ∧ Moved rest [x.b0, x.b1] (some 2) s t) ∧
      (s.params.xferFaults.prefix2 = false → exec .xfPrefix2 s = .refused .transportOutcomeNotAdmitted))

/-- R104 "Enabled when": with `wire` empty or a notification in progress no transport step is taken, whatever the
outcome (that the state then stays is log 6; that this comes before the admission is log 12). -/
def Obligations.TransportIsHeldUnlessEnabled : Prop :=
  ∀ (s : State) (i : Instr), (s.wire = [] ∨ s.rxN ≠ none) → i ∈ [.xfDeliver, .xfDrop, .xfPrefix1, .xfPrefix2] →
    exec i s = .next s

/-- R105: after a transport step that was enabled, a delivered transaction is one notification whose byte count is the
number of bytes available, and a dropped one is none. -/
def Obligations.OneNotificationPerDeliveredTransaction : Prop :=
  ∀ (s t : State) (i : Instr) (x : Txn) (rest : List Txn), s.wire = x :: rest → s.rxN = none →
    i ∈ [.xfDeliver, .xfDrop, .xfPrefix1, .xfPrefix2] → exec i s = .next t →
    (i = .xfDrop ∧ t.rxN = none) ∨
    (i ≠ .xfDrop ∧ ∃ n, t.rxN = some n ∧ t.rxbuf.length = n.toNat ∧ t.rxbuf <+: [x.b0, x.b1, x.b2] ∧ 0 < n.toNat)

/-- R54: `wire` is a FIFO: a step leaves it, appends one transaction that it also logs, or takes the oldest away. -/
def Obligations.WireIsAFifo : Prop :=
  ∀ (i : Instr) (s t : State), exec i s = .next t →
    (t.wire = s.wire ∧ t.busLog = s.busLog) ∨
    (∃ x, t.wire = s.wire ++ [x] ∧ t.busLog = s.busLog ++ [x] ∧ x.addr = s.params.slaveAddr) ∨
    (∃ x, s.wire = x :: t.wire ∧ t.busLog = s.busLog)

/-- R107: a 3-byte notification for actuator `k` commands it with the decoded direction and the speed; one for no
actuator ends in `silent RangeError` with the bytes consumed. Nothing else changes. -/
def Obligations.ReceivedFrameIsApplied : Prop :=
  ∀ (s : State) (m d sp : Byte), s.rxN = some 3 → s.rxbuf = [m, d, sp] →
    ∃ t, exec .frRecv s = .next t ∧
      (∀ k, m = motorId k → Commanded k (dirdecode d) sp s t ∧ silentClass .frRecv s = none) ∧
      ((∀ k, m ≠ motorId k) → OnlyConsumed s t ∧ silentClass .frRecv s = some .rangeError)

/-- R70: the ten rows in their order: for every frame received, the row it selects and that row's effect. -/
def Obligations.FrameTableSelectsTheEffect : Prop :=
  ∀ (s : State) (m d sp : Byte), s.rxN = some 3 → s.rxbuf = [m, d, sp] →
    (m = 1 → d = 1 → decode (.fr (packFrame m d sp)) = .frxFwdM1 sp ∧
      ∃ t, exec (.frxFwdM1 sp) s = .next t ∧ Commanded .m1 .fwd sp s t) ∧
    (m = 1 → d = 2 → decode (.fr (packFrame m d sp)) = .frxBwdM1 sp ∧
      ∃ t, exec (.frxBwdM1 sp) s = .next t ∧ Commanded .m1 .bwd sp s t) ∧
    (m = 1 → d ≠ 1 → d ≠ 2 → decode (.fr (packFrame m d sp)) = .frxStopM1 d sp ∧
      ∃ t, exec (.frxStopM1 d sp) s = .next t ∧ Commanded .m1 .stop sp s t) ∧
    (m = 2 → d = 1 → decode (.fr (packFrame m d sp)) = .frxFwdM2 sp ∧
      ∃ t, exec (.frxFwdM2 sp) s = .next t ∧ Commanded .m2 .fwd sp s t) ∧
    (m = 2 → d = 2 → decode (.fr (packFrame m d sp)) = .frxBwdM2 sp ∧
      ∃ t, exec (.frxBwdM2 sp) s = .next t ∧ Commanded .m2 .bwd sp s t) ∧
    (m = 2 → d ≠ 1 → d ≠ 2 → decode (.fr (packFrame m d sp)) = .frxStopM2 d sp ∧
      ∃ t, exec (.frxStopM2 d sp) s = .next t ∧ Commanded .m2 .stop sp s t) ∧
    (m = 3 → d = 1 → decode (.fr (packFrame m d sp)) = .frxFwdM3 sp ∧
      ∃ t, exec (.frxFwdM3 sp) s = .next t ∧ Commanded .m3 .fwd sp s t) ∧
    (m = 3 → d = 2 → decode (.fr (packFrame m d sp)) = .frxBwdM3 sp ∧
      ∃ t, exec (.frxBwdM3 sp) s = .next t ∧ Commanded .m3 .bwd sp s t) ∧
    (m = 3 → d ≠ 1 → d ≠ 2 → decode (.fr (packFrame m d sp)) = .frxStopM3 d sp ∧
      ∃ t, exec (.frxStopM3 d sp) s = .next t ∧ Commanded .m3 .stop sp s t) ∧
    (m ≠ 1 → m ≠ 2 → m ≠ 3 → decode (.fr (packFrame m d sp)) = .frxIgnore m d sp ∧
      ∃ t, exec (.frxIgnore m d sp) s = .next t ∧ OnlyConsumed s t)

/-- R69, R70, R107: the operation `FR_RECV` and the row that the ten-row table selects for the frame in `rxbuf` do the
same. -/
def Obligations.ReceiveAgreesWithTheFrameTable : Prop :=
  ∀ (s : State) (m d sp : Byte), s.rxN = some 3 → s.rxbuf = [m, d, sp] →
    exec .frRecv s = exec (decode (.fr (packFrame m d sp))) s

/-- R108: a notification of any byte count but 3 is drained whole and ends in `silent FramingError`; nothing else
changes, whatever the bytes are. -/
def Obligations.OtherByteCountsAreDrained : Prop :=
  ∀ (s : State) (n : Byte), s.rxN = some n → n ≠ 3 →
    ∃ t, exec (.frDrain n) s = .next t ∧ OnlyConsumed s t ∧ silentClass (.frDrain n) s = some .framingError

/-- The model's choice of logs 6, 8 and 13: a receive row whose notification is not the one in progress is no step. -/
def Obligations.ReceiveRowsWaitForTheirNotification : Prop :=
  ∀ s : State,
    (∀ n, s.rxN ≠ some n → exec (.frDrain n) s = .next s) ∧
    (s.rxN ≠ some 3 ∨ s.rxbuf.length ≠ 3 → exec .frRecv s = .next s) ∧
    (∀ m d sp, (s.rxN ≠ some 3 ∨ s.rxbuf ≠ [m, d, sp]) → exec (decode (.fr (packFrame m d sp))) s = .next s)

/-- R109: the direction decode on every byte. -/
def Obligations.DirectionDecodeIsTotal : Prop :=
  ∀ d : Byte, (d = 1 → dirdecode d = .fwd) ∧ (d = 2 → dirdecode d = .bwd) ∧ (d ≠ 1 → d ≠ 2 → dirdecode d = .stop)

/-- R106, R160: the slave's receive step on a notification consumes every byte and clears `rx_n`, touching neither the
decoder nor the bus, in every state whose receive state agrees with itself. -/
def Obligations.ReceiveStepLeavesNothingBuffered : Prop :=
  ∀ (s : State) (n : Byte) (rest : List Event), RxConsistent s → s.rxN = some n → s.script = evRecv :: rest →
    ∃ t, step s = .next t ∧ t.rxbuf = [] ∧ t.rxN = none ∧ t.script = rest ∧ SameDecoder s t ∧ SameBus s t

/-- R163: while a notification is in progress the transport is held, and the receive step lifts the hold: after it, the
next transaction of `wire` is delivered. That a held step leaves the state as it is, is the model's choice of log 6: the
spec says only that no step is possible. -/
def Obligations.ReceiveStepLiftsTheTransportHold : Prop :=
  ∀ (s : State) (n : Byte) (x : Txn) (rest : List Txn), RxConsistent s → s.rxN = some n → s.wire = x :: rest →
    exec .xfDeliver s = .next s ∧
    ∃ t, runEvents [evRecv, evXfer .deliver] s = .next t ∧ t.wire = rest ∧ t.rxN = some 3 ∧
      t.rxbuf = [x.b0, x.b1, x.b2]

/-- R112: a frame sent, delivered and received leaves the actuators as the direct command does, for every actuator id,
every direction byte and every speed. -/
def Obligations.RoundTripActsAsTheDirectCommand : Prop :=
  ∀ (s : State) (k : Motor) (d sp : Byte), s.wire = [] → s.rxN = none →
    ∃ t, runEvents [evSend (motorId k) d sp, evXfer .deliver, evRecv] s = .next t ∧
      t.act.get k = some ⟨dirdecode d, sp⟩ ∧
      t.act = (actCmd k (dirdecode d) sp s).act ∧ t.actLog = (actCmd k (dirdecode d) sp s).actLog ∧
      t.wire = [] ∧ t.rxN = none ∧ SameDecoder s t

/-- R111: the same valid frame delivered twice leaves the actuators as delivered once, with both commands logged; sent
again after a drop it does what one delivery does. -/
def Obligations.RepeatedFramesAreIdempotent : Prop :=
  ∀ (s : State) (k : Motor) (d sp : Byte), s.wire = [] → s.rxN = none → (d = 0 ∨ d = 1 ∨ d = 2) →
    ∃ once twice : State,
      runEvents [evSend (motorId k) d sp, evXfer .deliver, evRecv] s = .next once ∧
      runEvents [evSend (motorId k) d sp, evXfer .deliver, evRecv,
        evSend (motorId k) d sp, evXfer .deliver, evRecv] s = .next twice ∧
      twice.act = once.act ∧
      twice.actLog = s.actLog ++ [⟨k, ⟨dirdecode d, sp⟩⟩, ⟨k, ⟨dirdecode d, sp⟩⟩] ∧
      (s.params.xferFaults.drop = true → ∃ resent,
        runEvents [evSend (motorId k) d sp, evXfer .drop, evSend (motorId k) d sp, evXfer .deliver, evRecv] s =
          .next resent ∧
        resent.act = once.act ∧ resent.actLog = once.actLog)

/-- R100: what the producer passes to the serializer for a parsed command, and that it passes nothing for a target
outside 5..7. -/
def Obligations.ProducerPassesOnlyValidFrames : Prop :=
  ∀ (target : Int) (c : Char) (speed : Option Int),
    (5 ≤ target → target ≤ 7 → ∃ m d sp : Byte, producer target c speed = some (m, d, sp) ∧
      cmdEvents target c speed = [evSend m d sp] ∧
      (m.toNat : Int) = target - 4 ∧
      (c = 'f' → d = 1) ∧ (c = 'b' → d = 2) ∧ (c ≠ 'f' → c ≠ 'b' → d = 0) ∧
      (∀ v, speed = some v → (sp.toNat : Int) = min (max v 0) 255) ∧ (speed = none → sp = 0)) ∧
    (target < 5 ∨ 7 < target → producer target c speed = none ∧ cmdEvents target c speed = [])

/-! ## Reset -/

/-- R150: what the reset of each node sets and what it leaves. That it also leaves the model's own script and read port
is the model's choice (logs 4 and 7). -/
def Obligations.ResetsSetTheResetValues : Prop :=
  ∀ (s : State) (lines : PollLevels),
    (∃ t, exec (.resetMaster lines) s = .next t ∧ (∀ k, t.cnt.get k = 0) ∧
      (s.params.lastAInit = .sample → t.lastA = lines) ∧
      (s.params.lastAInit = .zero → ∀ k, t.lastA.get k = false) ∧
      SameSlave s t ∧ SameBus s t ∧ SameModel s t) ∧
    (∃ t, exec .resetSlave s = .next t ∧ (∀ m, t.act.get m = none) ∧ t.rxbuf = [] ∧ t.rxN = none ∧
      t.actLog = s.actLog ∧ SameDecoder s t ∧ SameBus s t ∧ SameModel s t)

/-- R27, R132: in every state an observation of an actuator register is `fault UnsetActuator` while it is `UNSET` and
its value otherwise; after the slave's reset every register is `UNSET`, and after a received command it holds that
command while the other registers answer as before. -/
def Obligations.UnsetActuatorFaultsOnObservation : Prop :=
  ∀ (s : State) (m : Motor),
    (s.act.get m = none → readAct m s = .fault .unsetActuator) ∧
    (∀ c, s.act.get m = some c → readAct m s = .next c) ∧
    (∃ t, exec .resetSlave s = .next t ∧ readAct m t = .fault .unsetActuator) ∧
    (∀ d sp, s.rxN = some 3 → s.rxbuf = [motorId m, d, sp] →
      ∃ t, exec .frRecv s = .next t ∧ readAct m t = .next ⟨dirdecode d, sp⟩ ∧ ∀ j, j ≠ m → readAct j t = readAct j s)

/-- R151: `POWERUP` is both resets with `wire` and the logs empty, from any state. What it does to the model's own fields
is the model's choice: it leaves the parameters (log 1) and the script (log 4) and empties the read port (log 7). -/
def Obligations.PowerUpClearsEverything : Prop :=
  ∀ (s : State) (lines : PollLevels),
    ∃ u v, exec (.resetMaster lines) s = .next u ∧ exec .resetSlave u = .next v ∧
      (powerUp lines s).cnt = v.cnt ∧ (powerUp lines s).lastA = v.lastA ∧ (powerUp lines s).act = v.act ∧
      (powerUp lines s).rxbuf = v.rxbuf ∧ (powerUp lines s).rxN = v.rxN ∧
      (powerUp lines s).wire = [] ∧ (powerUp lines s).busLog = [] ∧ (powerUp lines s).actLog = [] ∧
      (powerUp lines s).params = s.params ∧ (powerUp lines s).script = s.script ∧ (powerUp lines s).readPort = none

/-- R34, R151: `State.reset` is a power-up of any state that has its parameters and no script, with the levels it
samples (the parameters at reset are logs 1 and 2, the levels log 3). -/
def Obligations.ResetStateIsAPowerUp : Prop :=
  ∀ s : State, s.params = Config.params → s.script = [] → State.reset = powerUp Config.powerUpLines s

/-! ## Whole machine -/

/-- The invariants hold at reset. -/
def Obligations.InvariantsHoldAtReset : Prop :=
  BlockInv State.reset ∧ Traceable State.reset ∧ InOrder State.reset ∧ CountsBounded State.reset

/-- Every step keeps `BlockInv`: counters in range (R20), receive state consistent (R28, R105), `wire` the newest
transactions in order (R54), every transaction to the slave (R42), and each actuator register the last command logged
for it (R27, R110). -/
def Obligations.EveryStepKeepsTheInvariant : Prop := ∀ s t : State, BlockInv s → step s = .next t → BlockInv t

/-- Every command the slave carries out was sent as a frame with that id, direction and speed (R54, R104, R107, D27):
every step keeps `Traceable`. -/
def Obligations.EveryCommandWasSent : Prop := ∀ s t : State, Traceable s → step s = .next t → Traceable t

/-- No transaction is duplicated and none is reordered (R54): every step keeps `InOrder`, in which the commands logged
are, in order, a sublist of the commands of the transactions sent and no longer on the wire. -/
def Obligations.NoTransactionIsDuplicated : Prop := ∀ s t : State, InOrder s → step s = .next t → InOrder t

/-- R30: both logs are append-only: after a step, what was logged before is still their beginning. -/
def Obligations.LogsAreAppendOnly : Prop :=
  ∀ s t : State, step s = .next t → s.busLog <+: t.busLog ∧ s.actLog <+: t.actLog

/-- R24, R26: `CH_MODE` makes exactly channels 2 to 6 polled, and the slave's address is static. That all five parameters
of R7 stand in the state and no step changes them is the model's choice (log 1). -/
def Obligations.ConfigurationIsStatic : Prop :=
  (∀ s t : State, step s = .next t → t.params = s.params) ∧
  (∀ k : Chan, Config.chMode k = .poll ↔ ∃ c : PollChan, c.chan = k)

/-- R3, R113, R138: what each agent's steps leave alone. The master's firings, polls, reads, sends and reset do not
touch the slave; the transport, the slave and its reset do not touch the decoder; the slave never transmits. -/
def Obligations.AgentsLeaveTheOtherNodeAlone : Prop :=
  ∀ (i : Instr) (s t : State), exec i s = .next t →
    (i.agent = .edgeSource ∨ i.agent = .mainContext ∨ i.agent = .masterReset → SameSlave s t) ∧
    (i.agent = .transport ∨ i.agent = .slaveReceive ∨ i.agent = .slaveReset → SameDecoder s t) ∧
    (i.agent = .edgeSource ∨ i.agent = .masterReset ∨ i.agent = .slaveReceive ∨ i.agent = .slaveReset → SameBus s t)

/-- R138 "The nodes share no state": what a step of the slave does to the slave depends on the slave alone, and what
a step of the master's decoder does to the decoder depends on the decoder and the parameters alone. -/
def Obligations.NodesDoNotInfluenceEachOther : Prop :=
  ∀ (i : Instr) (s s' t : State), exec i s = .next t →
    (i.agent = .slaveReceive ∨ i.agent = .slaveReset → SameSlave s s' →
      ∃ t', exec i s' = .next t' ∧ SameSlave t t') ∧
    (i.agent = .edgeSource ∨ i.agent = .mainContext ∨ i.agent = .masterReset → SameDecoder s s' → s'.params = s.params →
      ∃ t', exec i s' = .next t' ∧ SameDecoder t t')

/-- R27: an actuator register changes only by a receive step that consumes a 3-byte notification, or to `UNSET` by the
slave's reset. -/
def Obligations.ActuatorsChangeOnlyByFramesOrReset : Prop :=
  ∀ (i : Instr) (s t : State), exec i s = .next t → t.act ≠ s.act →
    (i.agent = .slaveReceive ∧ s.rxN = some 3 ∧ t.rxN = none ∧ t.actLog.length = s.actLog.length + 1) ∨
    (i = .resetSlave ∧ ∀ m, t.act.get m = none)

/-- R131: a step that ends in an error class leaves actuators, counters, stored levels and both logs as they were. -/
def Obligations.SilentOutcomesLeaveNoTrace : Prop :=
  ∀ (i : Instr) (s t : State) (c : ErrorClass), silentClass i s = some c → exec i s = .next t →
    t.act = s.act ∧ t.actLog = s.actLog ∧ t.busLog = s.busLog ∧ SameDecoder s t

/-- No step of the block faults. R132 has one fault, raised by a read of an actuator register (R27); that no row makes
such a read, so that the observation is no step, is the model's deduction (log 15). -/
def Obligations.NoStepFaults : Prop := ∀ (s : State) (r : Fault), step s ≠ .fault r

/-- R132: a well-formed row is refused exactly for a select of no channel, or for a transport outcome that is enabled and
not admitted. That an outcome not admitted is refused only where the step is enabled is the model's deduction (log
12). -/
def Obligations.RefusalsAreExactlyTheSpecs : Prop :=
  ∀ (i : Instr) (s : State) (r : Refusal), i.wellFormed = true → (exec i s = .refused r ↔
    (r = .noSuchChannel ∧ ((∃ k a b, i = .qpNoSuchChannel k a b) ∨ i = .rdReserved0 ∨ i = .rdReserved7)) ∨
    (r = .transportOutcomeNotAdmitted ∧ s.wire ≠ [] ∧ s.rxN = none ∧
      ((i = .xfDrop ∧ s.params.xferFaults.drop = false) ∨ (i = .xfPrefix1 ∧ s.params.xferFaults.prefix1 = false) ∨
        (i = .xfPrefix2 ∧ s.params.xferFaults.prefix2 = false))))

/-- A bound on counts that R54 implies: every step keeps `CountsBounded`, in which the commands carried out, the
notification in progress and the transactions under way are together no more than the transactions sent. It does not by
itself exclude a duplicate; `NoTransactionIsDuplicated` does. -/
def Obligations.CommandsAreBoundedByTransactions : Prop :=
  ∀ s t : State, CountsBounded s → step s = .next t → CountsBounded t
end

