-- ==== Sys2Proof/Laws/Decode.lean ====
section
/-! SUPPORT. The fields of packed keys, and the masks of R70 as conditions on bytes. -/

namespace Sys2Proof

theorem packFrame_getLsbD (m d sp : Byte) (i : Nat) : (packFrame m d sp).getLsbD i =
    if i < 8 then sp.getLsbD i else if i < 16 then d.getLsbD (i - 8) else m.getLsbD (i - 16) := by
  unfold packFrame
  rw [BitVec.getLsbD_append, BitVec.getLsbD_append]
  by_cases h : i < 8
  · simp [h]
  · by_cases h2 : i < 16
    · have h3 : i - 8 < 8 := by omega
      simp [h, h2, h3]
    · have h3 : ¬ i - 8 < 8 := by omega
      simp [h, h2, h3, Nat.sub_sub]

@[simp] theorem frameByte0_packFrame (m d sp : Byte) : frameByte0 (packFrame m d sp) = m := by
  apply BitVec.eq_of_getLsbD_eq
  intro i hi
  have h1 : ¬ 16 + i < 8 := by omega
  simp [frameByte0, packFrame_getLsbD, hi, h1]

@[simp] theorem frameByte1_packFrame (m d sp : Byte) : frameByte1 (packFrame m d sp) = d := by
  apply BitVec.eq_of_getLsbD_eq
  intro i hi
  have h1 : 8 + i < 16 := by omega
  simp [frameByte1, packFrame_getLsbD, hi, h1]

@[simp] theorem frameByte2_packFrame (m d sp : Byte) : frameByte2 (packFrame m d sp) = sp := by
  apply BitVec.eq_of_getLsbD_eq
  intro i hi
  simp [frameByte2, packFrame_getLsbD, hi]

/-- A 24-bit value is the frame of its three bytes (R67). -/
theorem packFrame_bytes (f : BitVec 24) : packFrame (frameByte0 f) (frameByte1 f) (frameByte2 f) = f := by
  apply BitVec.eq_of_getLsbD_eq
  intro i hi
  simp only [packFrame_getLsbD, frameByte0, frameByte1, frameByte2, BitVec.getLsbD_extractLsb']
  split
  · simp [*]
  · split
    · have h1 : i - 8 < 8 := by omega
      have h2 : 8 + (i - 8) = i := by omega
      simp [h1, h2]
    · have h1 : i - 16 < 8 := by omega
      have h2 : 16 + (i - 16) = i := by omega
      simp [h1, h2]

theorem packFrame_inj {m d sp m' d' sp' : Byte} :
    packFrame m d sp = packFrame m' d' sp' ↔ m = m' ∧ d = d' ∧ sp = sp' := by
  constructor
  · intro h
    refine ⟨?_, ?_, ?_⟩
    · simpa using congrArg frameByte0 h
    · simpa using congrArg frameByte1 h
    · simpa using congrArg frameByte2 h
  · rintro ⟨rfl, rfl, rfl⟩; rfl

theorem packFrame_and (m d sp m' d' sp' : Byte) :
    packFrame m d sp &&& packFrame m' d' sp' = packFrame (m &&& m') (d &&& d') (sp &&& sp') := by
  apply BitVec.eq_of_getLsbD_eq
  intro i hi
  simp only [BitVec.getLsbD_and, packFrame_getLsbD]
  split
  · rfl
  · split <;> rfl

theorem byte_and_255 (x : Byte) : x &&& 255 = x := BitVec.and_allOnes

/-- The mask 0xFFFF00 compares byte 0 and byte 1 (R70). -/
theorem packFrame_mask01 (m d sp a b : Byte) : packFrame m d sp &&& 0xFFFF00#24 = packFrame a b 0 ↔ m = a ∧ d = b := by
  have h : (0xFFFF00#24) = packFrame 255 255 0 := by decide
  rw [h, packFrame_and, packFrame_inj, byte_and_255, byte_and_255]
  simp

/-- The mask 0xFF0000 compares byte 0 (R70). -/
theorem packFrame_mask0 (m d sp a : Byte) : packFrame m d sp &&& 0xFF0000#24 = packFrame a 0 0 ↔ m = a := by
  have h : (0xFF0000#24) = packFrame 255 0 0 := by decide
  rw [h, packFrame_and, packFrame_inj, byte_and_255]
  simp

/-- The ten rows of R70 as conditions on the bytes of the frame. -/
theorem decodeFR_packFrame (m d sp : Byte) : decodeFR (packFrame m d sp) =
    if m = 1 ∧ d = 1 then .frxFwdM1 sp else if m = 1 ∧ d = 2 then .frxBwdM1 sp else if m = 1 then .frxStopM1 d sp
    else if m = 2 ∧ d = 1 then .frxFwdM2 sp else if m = 2 ∧ d = 2 then .frxBwdM2 sp else if m = 2 then .frxStopM2 d sp
    else if m = 3 ∧ d = 1 then .frxFwdM3 sp else if m = 3 ∧ d = 2 then .frxBwdM3 sp else if m = 3 then .frxStopM3 d sp
    else .frxIgnore m d sp := by
  simp only [decodeFR, packFrame_mask01, packFrame_mask0,
    frameByte0_packFrame, frameByte1_packFrame, frameByte2_packFrame]

@[simp] theorem PollChan.ofSel_sel (k : PollChan) : PollChan.ofSel k.sel = some k := by cases k <;> rfl

theorem PollChan.sel_of_ofSel {k : BitVec 3} {c : PollChan} (h : PollChan.ofSel k = some c) : k = c.sel := by
  revert h; revert k; cases c <;> decide

/-- The selects without a polled channel are 0, 1 and 7 (R73). -/
theorem PollChan.ofSel_eq_none : ∀ k : BitVec 3, PollChan.ofSel k = none ↔ selectsNoPollChannel k = true := by decide

end Sys2Proof
end

