-- ==== Sys2Proof/Laws/Protocol.lean ====
section
/-! SUPPORT. The protocol definition of R115: which bytes name an actuator, and how direction bytes decode. -/

namespace Sys2Proof.Machine

@[simp] theorem motorOfId_motorId (m : Motor) : motorOfId (motorId m) = some m := by cases m <;> decide

/-- The ids are the bytes 1, 2, 3 (R41). -/
theorem motorOfId_eq_some {b : Byte} {m : Motor} : motorOfId b = some m ↔ b = motorId m := by
  constructor
  · unfold motorOfId
    intro h
    split at h
    · cases h; assumption
    · split at h
      · cases h; assumption
      · split at h
        · cases h; assumption
        · cases h
  · rintro rfl; simp

theorem motorOfId_eq_none {b : Byte} : motorOfId b = none ↔ b ≠ 1 ∧ b ≠ 2 ∧ b ≠ 3 := by
  unfold motorOfId
  constructor
  · intro h
    split at h
    · cases h
    · split at h
      · cases h
      · split at h
        · cases h
        · exact ⟨‹_›, ‹_›, ‹_›⟩
  · rintro ⟨h1, h2, h3⟩; rw [if_neg h1, if_neg h2, if_neg h3]

/-- The rows of R70 for no actuator take every byte 0 but 1, 2 and 3 (R41). -/
theorem namesNoActuator_eq_true {m : Byte} : namesNoActuator m = true ↔ m ≠ 1 ∧ m ≠ 2 ∧ m ≠ 3 :=
  Option.isNone_iff_eq_none.trans motorOfId_eq_none

/-- The direction bytes of a well-formed stop row decode to stop (R70, R109). -/
theorem dirdecode_of_decodesAsStop {d : Byte} (h : decodesAsStop d = true) : Mode.stop = dirdecode d := by
  obtain ⟨h1, h2⟩ := Bool.and_eq_true_iff.mp h
  unfold dirdecode
  rw [if_neg (bne_iff_ne.mp h1), if_neg (bne_iff_ne.mp h2)]

end Sys2Proof.Machine
end

