-- ==== Sys2Proof/Laws/State.lean ====
section
/-! SUPPORT. One lemma per field per update of `State`, and read after write of the register files: no later proof
unfolds a record update. -/

namespace Sys2Proof.Machine

section WithCnt
variable (s : State) (c : Counters)
@[simp] theorem State.withCnt_params : (s.withCnt c).params = s.params := rfl
@[simp] theorem State.withCnt_cnt : (s.withCnt c).cnt = c := rfl
@[simp] theorem State.withCnt_lastA : (s.withCnt c).lastA = s.lastA := rfl
@[simp] theorem State.withCnt_act : (s.withCnt c).act = s.act := rfl
@[simp] theorem State.withCnt_rxbuf : (s.withCnt c).rxbuf = s.rxbuf := rfl
@[simp] theorem State.withCnt_rxN : (s.withCnt c).rxN = s.rxN := rfl
@[simp] theorem State.withCnt_wire : (s.withCnt c).wire = s.wire := rfl
@[simp] theorem State.withCnt_busLog : (s.withCnt c).busLog = s.busLog := rfl
@[simp] theorem State.withCnt_actLog : (s.withCnt c).actLog = s.actLog := rfl
@[simp] theorem State.withCnt_readPort : (s.withCnt c).readPort = s.readPort := rfl
@[simp] theorem State.withCnt_script : (s.withCnt c).script = s.script := rfl
end WithCnt

section WithLastA
variable (s : State) (l : PollLevels)
@[simp] theorem State.withLastA_params : (s.withLastA l).params = s.params := rfl
@[simp] theorem State.withLastA_cnt : (s.withLastA l).cnt = s.cnt := rfl
@[simp] theorem State.withLastA_lastA : (s.withLastA l).lastA = l := rfl
@[simp] theorem State.withLastA_act : (s.withLastA l).act = s.act := rfl
@[simp] theorem State.withLastA_rxbuf : (s.withLastA l).rxbuf = s.rxbuf := rfl
@[simp] theorem State.withLastA_rxN : (s.withLastA l).rxN = s.rxN := rfl
@[simp] theorem State.withLastA_wire : (s.withLastA l).wire = s.wire := rfl
@[simp] theorem State.withLastA_busLog : (s.withLastA l).busLog = s.busLog := rfl
@[simp] theorem State.withLastA_actLog : (s.withLastA l).actLog = s.actLog := rfl
@[simp] theorem State.withLastA_readPort : (s.withLastA l).readPort = s.readPort := rfl
@[simp] theorem State.withLastA_script : (s.withLastA l).script = s.script := rfl
end WithLastA

section WithAct
variable (s : State) (a : ActRegs)
@[simp] theorem State.withAct_params : (s.withAct a).params = s.params := rfl
@[simp] theorem State.withAct_cnt : (s.withAct a).cnt = s.cnt := rfl
@[simp] theorem State.withAct_lastA : (s.withAct a).lastA = s.lastA := rfl
@[simp] theorem State.withAct_act : (s.withAct a).act = a := rfl
@[simp] theorem State.withAct_rxbuf : (s.withAct a).rxbuf = s.rxbuf := rfl
@[simp] theorem State.withAct_rxN : (s.withAct a).rxN = s.rxN := rfl
@[simp] theorem State.withAct_wire : (s.withAct a).wire = s.wire := rfl
@[simp] theorem State.withAct_busLog : (s.withAct a).busLog = s.busLog := rfl
@[simp] theorem State.withAct_actLog : (s.withAct a).actLog = s.actLog := rfl
@[simp] theorem State.withAct_readPort : (s.withAct a).readPort = s.readPort := rfl
@[simp] theorem State.withAct_script : (s.withAct a).script = s.script := rfl
end WithAct

section WithRx
variable (s : State) (b : List Byte) (n : Option Byte)
@[simp] theorem State.withRx_params : (s.withRx b n).params = s.params := rfl
@[simp] theorem State.withRx_cnt : (s.withRx b n).cnt = s.cnt := rfl
@[simp] theorem State.withRx_lastA : (s.withRx b n).lastA = s.lastA := rfl
@[simp] theorem State.withRx_act : (s.withRx b n).act = s.act := rfl
@[simp] theorem State.withRx_rxbuf : (s.withRx b n).rxbuf = b := rfl
@[simp] theorem State.withRx_rxN : (s.withRx b n).rxN = n := rfl
@[simp] theorem State.withRx_wire : (s.withRx b n).wire = s.wire := rfl
@[simp] theorem State.withRx_busLog : (s.withRx b n).busLog = s.busLog := rfl
@[simp] theorem State.withRx_actLog : (s.withRx b n).actLog = s.actLog := rfl
@[simp] theorem State.withRx_readPort : (s.withRx b n).readPort = s.readPort := rfl
@[simp] theorem State.withRx_script : (s.withRx b n).script = s.script := rfl
end WithRx

section WithWire
variable (s : State) (w : List Txn)
@[simp] theorem State.withWire_params : (s.withWire w).params = s.params := rfl
@[simp] theorem State.withWire_cnt : (s.withWire w).cnt = s.cnt := rfl
@[simp] theorem State.withWire_lastA : (s.withWire w).lastA = s.lastA := rfl
@[simp] theorem State.withWire_act : (s.withWire w).act = s.act := rfl
@[simp] theorem State.withWire_rxbuf : (s.withWire w).rxbuf = s.rxbuf := rfl
@[simp] theorem State.withWire_rxN : (s.withWire w).rxN = s.rxN := rfl
@[simp] theorem State.withWire_wire : (s.withWire w).wire = w := rfl
@[simp] theorem State.withWire_busLog : (s.withWire w).busLog = s.busLog := rfl
@[simp] theorem State.withWire_actLog : (s.withWire w).actLog = s.actLog := rfl
@[simp] theorem State.withWire_readPort : (s.withWire w).readPort = s.readPort := rfl
@[simp] theorem State.withWire_script : (s.withWire w).script = s.script := rfl
end WithWire

section WithBusLog
variable (s : State) (l : List Txn)
@[simp] theorem State.withBusLog_params : (s.withBusLog l).params = s.params := rfl
@[simp] theorem State.withBusLog_cnt : (s.withBusLog l).cnt = s.cnt := rfl
@[simp] theorem State.withBusLog_lastA : (s.withBusLog l).lastA = s.lastA := rfl
@[simp] theorem State.withBusLog_act : (s.withBusLog l).act = s.act := rfl
@[simp] theorem State.withBusLog_rxbuf : (s.withBusLog l).rxbuf = s.rxbuf := rfl
@[simp] theorem State.withBusLog_rxN : (s.withBusLog l).rxN = s.rxN := rfl
@[simp] theorem State.withBusLog_wire : (s.withBusLog l).wire = s.wire := rfl
@[simp] theorem State.withBusLog_busLog : (s.withBusLog l).busLog = l := rfl
@[simp] theorem State.withBusLog_actLog : (s.withBusLog l).actLog = s.actLog := rfl
@[simp] theorem State.withBusLog_readPort : (s.withBusLog l).readPort = s.readPort := rfl
@[simp] theorem State.withBusLog_script : (s.withBusLog l).script = s.script := rfl
end WithBusLog

section WithActLog
variable (s : State) (l : List ActEntry)
@[simp] theorem State.withActLog_params : (s.withActLog l).params = s.params := rfl
@[simp] theorem State.withActLog_cnt : (s.withActLog l).cnt = s.cnt := rfl
@[simp] theorem State.withActLog_lastA : (s.withActLog l).lastA = s.lastA := rfl
@[simp] theorem State.withActLog_act : (s.withActLog l).act = s.act := rfl
@[simp] theorem State.withActLog_rxbuf : (s.withActLog l).rxbuf = s.rxbuf := rfl
@[simp] theorem State.withActLog_rxN : (s.withActLog l).rxN = s.rxN := rfl
@[simp] theorem State.withActLog_wire : (s.withActLog l).wire = s.wire := rfl
@[simp] theorem State.withActLog_busLog : (s.withActLog l).busLog = s.busLog := rfl
@[simp] theorem State.withActLog_actLog : (s.withActLog l).actLog = l := rfl
@[simp] theorem State.withActLog_readPort : (s.withActLog l).readPort = s.readPort := rfl
@[simp] theorem State.withActLog_script : (s.withActLog l).script = s.script := rfl
end WithActLog

section WithReadPort
variable (s : State) (v : Option (Chan × Count))
@[simp] theorem State.withReadPort_params : (s.withReadPort v).params = s.params := rfl
@[simp] theorem State.withReadPort_cnt : (s.withReadPort v).cnt = s.cnt := rfl
@[simp] theorem State.withReadPort_lastA : (s.withReadPort v).lastA = s.lastA := rfl
@[simp] theorem State.withReadPort_act : (s.withReadPort v).act = s.act := rfl
@[simp] theorem State.withReadPort_rxbuf : (s.withReadPort v).rxbuf = s.rxbuf := rfl
@[simp] theorem State.withReadPort_rxN : (s.withReadPort v).rxN = s.rxN := rfl
@[simp] theorem State.withReadPort_wire : (s.withReadPort v).wire = s.wire := rfl
@[simp] theorem State.withReadPort_busLog : (s.withReadPort v).busLog = s.busLog := rfl
@[simp] theorem State.withReadPort_actLog : (s.withReadPort v).actLog = s.actLog := rfl
@[simp] theorem State.withReadPort_readPort : (s.withReadPort v).readPort = v := rfl
@[simp] theorem State.withReadPort_script : (s.withReadPort v).script = s.script := rfl
end WithReadPort

section WithScript
variable (s : State) (es : List Event)
@[simp] theorem State.withScript_params : (s.withScript es).params = s.params := rfl
@[simp] theorem State.withScript_cnt : (s.withScript es).cnt = s.cnt := rfl
@[simp] theorem State.withScript_lastA : (s.withScript es).lastA = s.lastA := rfl
@[simp] theorem State.withScript_act : (s.withScript es).act = s.act := rfl
@[simp] theorem State.withScript_rxbuf : (s.withScript es).rxbuf = s.rxbuf := rfl
@[simp] theorem State.withScript_rxN : (s.withScript es).rxN = s.rxN := rfl
@[simp] theorem State.withScript_wire : (s.withScript es).wire = s.wire := rfl
@[simp] theorem State.withScript_busLog : (s.withScript es).busLog = s.busLog := rfl
@[simp] theorem State.withScript_actLog : (s.withScript es).actLog = s.actLog := rfl
@[simp] theorem State.withScript_readPort : (s.withScript es).readPort = s.readPort := rfl
@[simp] theorem State.withScript_script : (s.withScript es).script = es := rfl
end WithScript

/-! ## Register files -/

@[simp] theorem Counters.get_set_self (c : Counters) (k : Chan) (v : Count) : (c.set k v).get k = v := by
  cases k <;> rfl

theorem Counters.get_set_other (c : Counters) (v : Count) {j k : Chan} (h : j ≠ k) :
    (c.set k v).get j = c.get j := by
  cases j <;> cases k <;> first | rfl | exact absurd rfl h

@[simp] theorem Counters.get_zero (k : Chan) : Counters.zero.get k = 0 := by cases k <;> rfl

/-- Two sets of counters that agree on every channel are equal. -/
theorem Counters.eq_of_get {c d : Counters} (h : ∀ k, c.get k = d.get k) : c = d := by
  obtain ⟨⟩ := c; obtain ⟨⟩ := d
  simp only [Counters.mk.injEq]
  exact ⟨h .e1, h .e2, h .e3, h .e4, h .e5, h .e6⟩

@[simp] theorem ActRegs.get_set_self (a : ActRegs) (m : Motor) (c : ActCommand) : (a.set m c).get m = some c := by
  cases m <;> rfl

theorem ActRegs.get_set_other (a : ActRegs) (c : ActCommand) {j m : Motor} (h : j ≠ m) :
    (a.set m c).get j = a.get j := by
  cases j <;> cases m <;> first | rfl | exact absurd rfl h

@[simp] theorem ActRegs.get_unset (m : Motor) : ActRegs.unset.get m = none := by cases m <;> rfl

theorem ActRegs.set_set (a : ActRegs) (m : Motor) (c : ActCommand) : (a.set m c).set m c = a.set m c := by
  cases m <;> rfl

end Sys2Proof.Machine

namespace Sys2Proof

@[simp] theorem PollLevels.get_set_self (l : PollLevels) (k : PollChan) (v : Level) : (l.set k v).get k = v := by
  cases k <;> rfl

theorem PollLevels.get_set_other (l : PollLevels) (v : Level) {j k : PollChan} (h : j ≠ k) :
    (l.set k v).get j = l.get j := by
  cases j <;> cases k <;> first | rfl | exact absurd rfl h

theorem PollLevels.set_get_self (l : PollLevels) (k : PollChan) : l.set k (l.get k) = l := by cases k <;> rfl

theorem PollChan.chan_injective {j k : PollChan} (h : j.chan = k.chan) : j = k := by
  cases j <;> cases k <;> first | rfl | cases h

theorem PollChan.chan_ne_e1 (k : PollChan) : k.chan ≠ .e1 := by cases k <;> decide

end Sys2Proof
end

