-- ==== Sys2Proof/Laws/Ops.lean ====
section
/-! SUPPORT. What each shared operation does, said once: provers cite these instead of unfolding the operation. -/

namespace Sys2Proof.Machine

/-! ## Arithmetic -/

/-- `wrap` of a sum may be taken of the wrapped part (R84: arithmetic modulo 2^w). -/
theorem wrap_wrap_add (w : Nat) (v d : Int) : wrap w (wrap w v + d) = wrap w (v + d) := Int.bmod_add_bmod

/-- `wrap` leaves a value of its range as it is (R8). -/
theorem wrap_of_inRange {w : Nat} {v : Int} (hw : 1 ≤ w) (hl : -(2 ^ (w - 1) : Int) ≤ v) (hu : v < (2 ^ (w - 1) : Int)) :
    wrap w v = v := by
  obtain ⟨n, rfl⟩ := Nat.exists_eq_add_of_le hw
  have h2 : (2 : Int) ^ (1 + n) = 2 * 2 ^ n := by rw [Int.pow_add]; rfl
  simp only [Nat.add_sub_cancel_left] at hl hu
  refine Int.bmod_eq_of_le ?_ ?_ <;> push_cast [h2] <;> omega

/-- `wrap` lands in the range of a counter (R8). -/
theorem wrap_inRange {w : Nat} (hw : 1 ≤ w) (v : Int) :
    -(2 ^ (w - 1) : Int) ≤ wrap w v ∧ wrap w v < (2 ^ (w - 1) : Int) := by
  obtain ⟨n, rfl⟩ := Nat.exists_eq_add_of_le hw
  have h2 : ((2 ^ (1 + n) : Nat) : Int) = 2 * 2 ^ n := by push_cast; rw [Int.pow_add]; rfl
  have hl := Int.le_bmod (x := v) (Nat.two_pow_pos (1 + n))
  have hu := Int.bmod_lt (x := v) (Nat.two_pow_pos (1 + n))
  have half : ∀ p : Int, 2 * p / 2 = p ∧ (2 * p + 1) / 2 = p := fun p => by constructor <;> omega
  rw [h2, (half _).1] at hl
  rw [h2, (half _).2] at hu
  simpa only [Nat.add_sub_cancel_left, wrap] using And.intro hl hu

/-- `addCnt` as the one update it is. -/
theorem addCnt_def (k : Chan) (d : Int) (s : State) :
    addCnt k d s = s.withCnt (s.cnt.set k (wrap s.params.cntW (s.cnt.get k + d))) := rfl

/-! ## Decoder -/

/-- `QD_EDGE` is one update of `cnt[1]`, up where A == B (R80). -/
theorem qdEdge_eq (a b : Level) (s : State) : qdEdge a b s = addCnt .e1 (if a = b then 1 else -1) s := by
  unfold qdEdge; split <;> rfl

/-- `QD_POLL` with A unchanged does nothing (R81). -/
theorem qdPoll_hold {k : PollChan} {a b : Level} {s : State} (h : a = s.lastA.get k) : qdPoll k a b s = s := if_pos h

/-- `QD_POLL` with A changed: one update of `cnt[k]` and one of `lastA[k]` (R81). -/
theorem qdPoll_changed {k : PollChan} {a b : Level} {s : State} (h : a ≠ s.lastA.get k) :
    qdPoll k a b s = (addCnt k.chan (if b = a then -1 else 1) s).withLastA (s.lastA.set k a) := by
  unfold qdPoll; rw [if_neg h]; split <;> rfl

/-! ## Receive buffer -/

/-- Where the opening of `FR_RECV` is enabled: three bytes, consumed in order, and no notification left (R107). -/
theorem rxFrame_eq_some {s t : State} {m d sp : Byte} :
    rxFrame s = some (m, d, sp, t) ↔ s.rxN = some 3 ∧ s.rxbuf = [m, d, sp] ∧ t = s.withRx [] none := by
  obtain ⟨params, cnt, lastA, act, rxbuf, rxN, wire, busLog, actLog, readPort, script⟩ := s
  unfold rxFrame rxAvail
  constructor
  · intro h
    split at h
    · rename_i hc
      obtain ⟨hn, hl⟩ := hc
      match rxbuf, hl with
      | [x, y, z], _ =>
        simp only [rxRead, State.withRx, Option.some.injEq, Prod.mk.injEq] at h
        obtain ⟨rfl, rfl, rfl, rfl⟩ := h
        exact ⟨hn, rfl, rfl⟩
    · cases h
  · rintro ⟨hn, hb, rfl⟩
    subst hn hb
    rfl

/-- Where it is not enabled (R44, log 13). -/
theorem rxFrame_eq_none {s : State} : rxFrame s = none ↔ ¬ (s.rxN = some 3 ∧ s.rxbuf.length = 3) := by
  constructor
  · rintro h ⟨hn, hl⟩
    match hb : s.rxbuf, hl with
    | [x, y, z], _ =>
      rw [rxFrame_eq_some.mpr ⟨hn, hb, rfl⟩] at h
      cases h
  · intro h
    unfold rxFrame rxAvail
    exact if_neg h

/-- The drain loop leaves `rxbuf` empty and changes nothing else (R108). -/
theorem rxDiscard_avail (s : State) : rxDiscard (rxAvail s) s = s.withRx [] s.rxN := by
  suffices ∀ n (s : State), s.rxbuf.length = n → rxDiscard n s = s.withRx [] s.rxN from this _ s rfl
  intro n
  induction n with
  | zero => intro s h; rw [List.length_eq_zero_iff] at h; cases s; cases h; rfl
  | succ n ih =>
    intro s h
    match hb : s.rxbuf with
    | [] => rw [hb] at h; cases h
    | x :: rest =>
      rw [hb] at h
      simp only [rxDiscard, rxRead, hb]
      rw [ih _ (by simpa using h)]
      rfl

/-- `FR_DRAIN` where it is enabled (R108). -/
theorem frDrain_enabled {n : Byte} {s : State} (h : s.rxN = some n) (hn : n ≠ 3) :
    frDrain n s = s.withRx [] none := by
  unfold frDrain
  rw [if_pos ⟨h, hn⟩, rxDiscard_avail]
  rfl

/-- `FR_DRAIN` where it is not. -/
theorem frDrain_held {n : Byte} {s : State} (h : ¬ (s.rxN = some n ∧ n ≠ 3)) : frDrain n s = s := if_neg h

/-- `FR_RECV` where it is enabled (R107). -/
theorem frRecv_enabled {s : State} {m d sp : Byte} (h : s.rxN = some 3) (hb : s.rxbuf = [m, d, sp]) :
    frRecv s = applyFrame m d sp (s.withRx [] none) := by
  simp only [frRecv, rxFrame_eq_some.mpr ⟨h, hb, rfl⟩]

/-- `FR_RECV` where it is not. -/
theorem frRecv_held {s : State} (h : ¬ (s.rxN = some 3 ∧ s.rxbuf.length = 3)) : frRecv s = s := by
  simp only [frRecv, rxFrame_eq_none.mpr h]

/-- A row of R70 on the frame it is for. -/
theorem recvRow_enabled {s : State} {m d sp : Byte} {f : State → State} (h : s.rxN = some 3) (hb : s.rxbuf = [m, d, sp]) :
    recvRow m d sp f s = f (s.withRx [] none) := by
  simp only [recvRow, rxFrame_eq_some.mpr ⟨h, hb, rfl⟩, and_self, if_true]

/-- A row of R70 where its frame is not the one received. -/
theorem recvRow_held {s : State} {m d sp : Byte} {f : State → State} (h : ¬ (s.rxN = some 3 ∧ s.rxbuf = [m, d, sp])) :
    recvRow m d sp f s = s := by
  unfold recvRow
  split
  · rename_i m' d' sp' t hf
    obtain ⟨hn, hb, -⟩ := rxFrame_eq_some.mp hf
    refine if_neg ?_
    rintro ⟨rfl, rfl, rfl⟩
    exact h ⟨hn, hb⟩
  · rfl

/-! ## The effect of a frame -/

/-- The effect of a frame for a known actuator (R107). -/
theorem applyFrame_known (m : Motor) (d sp : Byte) (s : State) :
    applyFrame (motorId m) d sp s = actCmd m (dirdecode d) sp s := by
  simp only [applyFrame, motorOfId_motorId]

/-- The effect of a frame for no actuator: none (R107). -/
theorem applyFrame_unknown {m : Byte} (h : motorOfId m = none) (d sp : Byte) (s : State) : applyFrame m d sp s = s := by
  simp only [applyFrame, h]

/-! ## Transport -/

/-- `BUS_XFER` where it is enabled and the outcome admitted (R104). -/
theorem busXfer_moves {o : XferOutcome} {s : State} {t : Txn} {rest : List Txn} (hw : s.wire = t :: rest)
    (hn : s.rxN = none) (ha : admitted s.params.xferFaults o = true) :
    busXfer o s = .next (deliver o t (s.withWire rest)) := by
  simp only [busXfer, hw, hn, ha, if_true]

/-- `BUS_XFER` where it is held (R104). -/
theorem busXfer_held {o : XferOutcome} {s : State} (h : s.wire = [] ∨ s.rxN ≠ none) : busXfer o s = .next s := by
  unfold busXfer
  split
  · rename_i hw hn
    rcases h with h | h
    · rw [hw] at h; cases h
    · exact absurd hn h
  · rfl

/-- `BUS_XFER` of an outcome that is not admitted (R71). -/
theorem busXfer_notAdmitted {o : XferOutcome} {s : State} (hw : s.wire ≠ []) (hn : s.rxN = none)
    (ha : admitted s.params.xferFaults o = false) : busXfer o s = .refused .transportOutcomeNotAdmitted := by
  cases h : s.wire with
  | nil => exact absurd h hw
  | cons t rest =>
    unfold busXfer
    simp only [h, hn]
    rw [ha]
    rfl

/-- If `BUS_XFER` answers a next state, it was held, or the oldest transaction left `wire`. -/
theorem busXfer_next {o : XferOutcome} {s t : State} (h : busXfer o s = .next t) :
    t = s ∨ ∃ x rest, s.wire = x :: rest ∧ s.rxN = none ∧ admitted s.params.xferFaults o = true ∧
      t = deliver o x (s.withWire rest) := by
  unfold busXfer at h
  split at h
  · rename_i x rest hw hn
    split at h
    · rename_i ha
      cases h
      exact .inr ⟨x, rest, hw, hn, ha, rfl⟩
    · cases h
  · cases h; exact .inl rfl

end Sys2Proof.Machine
end

