-- ==== Sys2Proof/Laws/Step.lean ====
section
/-! SUPPORT. What a step can do, said once: the cases of `fetch` and `step`, and `Effect`, the list of everything a
row can do when `exec` answers a next state. -/

namespace Sys2Proof.Machine

/-! ## Fetch and step -/

theorem fetch_nil {s : State} (h : s.script = []) : fetch s = (none, s) := by
  unfold fetch; rw [h]

theorem fetch_event {s : State} {e : Event} {rest : List Event} (h : s.script = e :: rest) (he : expandEvent e = [e]) :
    fetch s = (keyOf s e, s.withScript rest) := by
  unfold fetch; rw [h]; simp only [he, List.nil_append]

theorem expandEvent_of_ne_ps {e : Event} (h : ∀ w, e ≠ .ps w) : expandEvent e = [e] := by
  cases e <;> first | rfl | exact absurd rfl (h _)

theorem fetch_ps {s : State} {w : BitVec 10} {rest : List Event} (h : s.script = .ps w :: rest) :
    fetch s = (keyOf s (.qp 2 (passPair w 4)),
      s.withScript (.qp 3 (passPair w 3) :: .qp 4 (passPair w 2) :: .qp 5 (passPair w 1) :: .qp 6 (passPair w 0) :: rest)) := by
  unfold fetch; rw [h]; rfl

/-- A fetch changes nothing but the script. -/
theorem fetch_state (s : State) : ∃ es, (fetch s).2 = s.withScript es := by
  unfold fetch
  split
  · exact ⟨s.script, rfl⟩
  · split
    · exact ⟨_, rfl⟩
    · exact ⟨_, rfl⟩

theorem step_of_fetch_some {s s' : State} {key : Key} (h : fetch s = (some key, s')) : step s = exec (decode key) s' := by
  unfold step; rw [h]

theorem step_of_fetch_none {s s' : State} (h : fetch s = (none, s')) : step s = .next s' := by
  unfold step; rw [h]

/-- What a step is: a row executed on the state with another script, or that state itself. -/
theorem step_cases (s : State) : ∃ es, (∃ key, step s = exec (decode key) (s.withScript es)) ∨
    step s = .next (s.withScript es) := by
  obtain ⟨es, hes⟩ := fetch_state s
  refine ⟨es, ?_⟩
  rcases hf : fetch s with ⟨_ | key, s'⟩ <;> rw [hf] at hes <;> cases hes
  · exact .inr (step_of_fetch_none hf)
  · exact .inl ⟨key, step_of_fetch_some hf⟩

/-! ## Everything a row can do -/

/-- The next states `exec` can answer from `s` for a row of which `wf` says whether it is well-formed: only an
ill-formed stop row commands another mode than that of its direction byte. -/
inductive Effect (wf : Prop) (s : State) : State → Prop where
  /-- Nothing: a step that is not enabled. -/
  | held : Effect wf s s
  | edge (a b : Level) : Effect wf s (qdEdge a b s)
  | poll (k : PollChan) (a b : Level) : Effect wf s (qdPoll k a b s)
  | read (k : Chan) : Effect wf s (qdRead k s)
  | send (m d sp : Byte) : Effect wf s (busTx (frameTxn m d sp s) s)
  | xfer (o : XferOutcome) {x : Txn} {rest : List Txn} (hw : s.wire = x :: rest) (hn : s.rxN = none)
      (ha : admitted s.params.xferFaults o = true) : Effect wf s (deliver o x (s.withWire rest))
  | ignored {m d sp : Byte} (hn : s.rxN = some 3) (hb : s.rxbuf = [m, d, sp]) : Effect wf s (s.withRx [] none)
  | commanded {d sp : Byte} (k : Motor) (mode : Mode) (hm : wf → mode = dirdecode d) (hn : s.rxN = some 3)
      (hb : s.rxbuf = [motorId k, d, sp]) :
      Effect wf s (actCmd k mode sp (s.withRx [] none))
  | drained {n : Byte} (hn : s.rxN = some n) (h3 : n ≠ 3) : Effect wf s (s.withRx [] none)
  | masterReset (lines : PollLevels) : Effect wf s (resetMaster lines s)
  | slaveReset : Effect wf s (resetSlave s)

theorem busXfer_effect {wf : Prop} {o : XferOutcome} {s t : State} (h : busXfer o s = .next t) : Effect wf s t := by
  obtain rfl | ⟨x, rest, hw, hn, ha, rfl⟩ := busXfer_next h
  · exact .held
  · exact .xfer o hw hn ha

theorem frRecv_effect {wf : Prop} (s : State) : Effect wf s (frRecv s) := by
  by_cases h : s.rxN = some 3 ∧ s.rxbuf.length = 3
  · obtain ⟨hn, hl⟩ := h
    match hb : s.rxbuf, hl with
    | [m, d, sp], _ =>
      rw [frRecv_enabled hn hb]
      cases hm : motorOfId m with
      | none => rw [applyFrame_unknown hm]; exact .ignored hn hb
      | some k =>
        rw [motorOfId_eq_some.mp hm] at hb ⊢
        rw [applyFrame_known]
        exact .commanded k _ (fun _ => rfl) hn hb
  · rw [frRecv_held h]; exact .held

theorem frDrain_effect {wf : Prop} (n : Byte) (s : State) : Effect wf s (frDrain n s) := by
  by_cases h : s.rxN = some n ∧ n ≠ 3
  · rw [frDrain_enabled h.1 h.2]; exact .drained h.1 h.2
  · rw [frDrain_held h]; exact .held

theorem recvRow_effect {wf : Prop} (k : Motor) (d sp : Byte) {mode : Mode} (hm : wf → mode = dirdecode d) (s : State) :
    Effect wf s (recvRow (motorId k) d sp (actCmd k mode sp) s) := by
  by_cases h : s.rxN = some 3 ∧ s.rxbuf = [motorId k, d, sp]
  · rw [recvRow_enabled h.1 h.2]; exact .commanded k mode hm h.1 h.2
  · rw [recvRow_held h]; exact .held

/-- If `exec` answers a next state, it is one of the effects. -/
theorem exec_effect {i : Instr} {s t : State} (h : exec i s = .next t) : Effect (i.wellFormed = true) s t := by
  cases i
  case qeInc00 => cases h; exact .edge _ _
  case qeInc11 => cases h; exact .edge _ _
  case qeDec10 => cases h; exact .edge _ _
  case qeDec01 => cases h; exact .edge _ _
  case qpHold0 => cases h; exact .poll _ _ _
  case qpHold1 => cases h; exact .poll _ _ _
  case qpInc010 => cases h; exact .poll _ _ _
  case qpInc101 => cases h; exact .poll _ _ _
  case qpDec011 => cases h; exact .poll _ _ _
  case qpDec100 => cases h; exact .poll _ _ _
  case qpNoSuchChannel => cases h
  case qdReadE1 => cases h; exact .read _
  case qdReadE2 => cases h; exact .read _
  case qdReadE3 => cases h; exact .read _
  case qdReadE4 => cases h; exact .read _
  case qdReadE5 => cases h; exact .read _
  case qdReadE6 => cases h; exact .read _
  case rdReserved0 => cases h
  case rdReserved7 => cases h
  case frSend => cases h; exact .send _ _ _
  case xfDeliver => exact busXfer_effect h
  case xfDrop => exact busXfer_effect h
  case xfPrefix1 => exact busXfer_effect h
  case xfPrefix2 => exact busXfer_effect h
  case frRecv => cases h; exact frRecv_effect s
  case frDrain => cases h; exact frDrain_effect _ s
  case frxFwdM1 sp => cases h; exact recvRow_effect .m1 1 sp (fun _ => rfl) s
  case frxBwdM1 sp => cases h; exact recvRow_effect .m1 2 sp (fun _ => rfl) s
  case frxStopM1 d sp => cases h; exact recvRow_effect .m1 d sp dirdecode_of_decodesAsStop s
  case frxFwdM2 sp => cases h; exact recvRow_effect .m2 1 sp (fun _ => rfl) s
  case frxBwdM2 sp => cases h; exact recvRow_effect .m2 2 sp (fun _ => rfl) s
  case frxStopM2 d sp => cases h; exact recvRow_effect .m2 d sp dirdecode_of_decodesAsStop s
  case frxFwdM3 sp => cases h; exact recvRow_effect .m3 1 sp (fun _ => rfl) s
  case frxBwdM3 sp => cases h; exact recvRow_effect .m3 2 sp (fun _ => rfl) s
  case frxStopM3 d sp => cases h; exact recvRow_effect .m3 d sp dirdecode_of_decodesAsStop s
  case frxIgnore m d sp =>
    cases h
    by_cases hf : s.rxN = some 3 ∧ s.rxbuf = [m, d, sp]
    · rw [recvRow_enabled hf.1 hf.2]; exact .ignored hf.1 hf.2
    · rw [recvRow_held hf]; exact .held
  case resetMaster => cases h; exact .masterReset _
  case resetSlave => cases h; exact .slaveReset

/-- The rows that answer every state with a next state complete from it; the others are named. -/
theorem exec_ne_fault (i : Instr) (s : State) (r : Fault) : exec i s ≠ .fault r := by
  have hx : ∀ o, busXfer o s ≠ .fault r := by
    intro o; unfold busXfer; split
    · split <;> intro h <;> cases h
    · intro h; cases h
  cases i <;> first | exact hx _ | (intro h; cases h)

end Sys2Proof.Machine
end

