-- ==== Sys2Proof/Laws/Frames.lean ====
section
/-! SUPPORT. What each shared operation does and leaves, in the words of Safety.lean. -/

namespace Sys2Proof.Machine

theorem SameModel.refl (s : State) : SameModel s s := ⟨rfl, rfl, rfl⟩
theorem SameDecoder.refl (s : State) : SameDecoder s s := ⟨rfl, rfl⟩
theorem SameSlave.refl (s : State) : SameSlave s s := ⟨rfl, rfl, rfl, rfl⟩
theorem SameBus.refl (s : State) : SameBus s s := ⟨rfl, rfl⟩

/-- `QD_EDGE` (R80). -/
theorem qdEdge_fired (a b : Level) (s : State) : Fired (if a = b then 1 else -1) s (qdEdge a b s) := by
  rw [qdEdge_eq, addCnt_def]
  exact ⟨by simp, ⟨fun j h => by simp [Counters.get_set_other _ _ h], rfl⟩, ⟨rfl, rfl, rfl, rfl⟩, ⟨rfl, rfl⟩, ⟨rfl, rfl, rfl⟩⟩

/-- `QD_POLL` with A changed (R81). -/
theorem qdPoll_polled {k : PollChan} {a b : Level} {s : State} (h : a ≠ s.lastA.get k) :
    Polled k (if b = a then -1 else 1) a s (qdPoll k a b s) := by
  rw [qdPoll_changed h, addCnt_def]
  exact ⟨by simp, by simp, ⟨fun j h => by simp [Counters.get_set_other _ _ h],
    fun j h => by simp [PollLevels.get_set_other _ _ h]⟩, ⟨rfl, rfl, rfl, rfl⟩, ⟨rfl, rfl⟩, ⟨rfl, rfl, rfl⟩⟩

/-- `QD_READ` (R83). -/
theorem qdRead_readOut (k : Chan) (s : State) : ReadOut k s (qdRead k s) :=
  ⟨rfl, ⟨rfl, rfl⟩, ⟨rfl, rfl, rfl, rfl⟩, ⟨rfl, rfl⟩, rfl, rfl⟩

/-- `BusTx` of a frame (R101, R102). -/
theorem busTx_sent (m d sp : Byte) (s : State) : Sent m d sp s (busTx (frameTxn m d sp s) s) :=
  ⟨rfl, rfl, ⟨rfl, rfl⟩, ⟨rfl, rfl, rfl, rfl⟩, ⟨rfl, rfl, rfl⟩⟩

/-- `ActCmd` after the notification is consumed (R107, R110). -/
theorem actCmd_commanded (k : Motor) (mode : Mode) (sp : Byte) (s : State) :
    Commanded k mode sp s (actCmd k mode sp (s.withRx [] none)) :=
  ⟨ActRegs.get_set_self _ _ _, fun _ h => ActRegs.get_set_other _ _ h, rfl, ⟨rfl, rfl⟩, ⟨rfl, rfl⟩, ⟨rfl, rfl⟩,
    ⟨rfl, rfl, rfl⟩⟩

/-- A notification consumed and nothing else (R107, R108). -/
theorem withRx_onlyConsumed (s : State) : OnlyConsumed s (s.withRx [] none) :=
  ⟨rfl, rfl, ⟨rfl, rfl⟩, ⟨rfl, rfl⟩, ⟨rfl, rfl⟩, ⟨rfl, rfl, rfl⟩⟩

/-- A row of R70 with an effect that leaves the decoder, the bus and the model alone does so too. -/
theorem recvRow_leaves {m d sp : Byte} {f : State → State} {s : State} (hd : SameDecoder s (f (s.withRx [] none)))
    (hb : SameBus s (f (s.withRx [] none))) (hm : SameModel s (f (s.withRx [] none))) :
    SameDecoder s (recvRow m d sp f s) ∧ SameBus s (recvRow m d sp f s) ∧ SameModel s (recvRow m d sp f s) := by
  by_cases h : s.rxN = some 3 ∧ s.rxbuf = [m, d, sp]
  · rw [recvRow_enabled h.1 h.2]; exact ⟨hd, hb, hm⟩
  · rw [recvRow_held h]; exact ⟨.refl s, .refl s, .refl s⟩

/-- Whatever frame is received, the row it selects completes and leaves the decoder, the bus and the model alone. -/
theorem exec_decodeFR (f : BitVec 24) (s : State) :
    ∃ t, exec (decodeFR f) s = .next t ∧ SameDecoder s t ∧ SameBus s t ∧ SameModel s t := by
  have row : ∀ m d sp k mode, ∃ t, Host.Outcome.next (recvRow m d sp (actCmd k mode sp) s) =
      (.next t : Host.Outcome State Fault Refusal) ∧ SameDecoder s t ∧ SameBus s t ∧ SameModel s t :=
    fun m d sp k mode => ⟨_, rfl, recvRow_leaves ⟨rfl, rfl⟩ ⟨rfl, rfl⟩ ⟨rfl, rfl, rfl⟩⟩
  unfold decodeFR
  repeat' split
  all_goals first
    | exact row _ _ _ _ _
    | exact ⟨_, rfl, recvRow_leaves ⟨rfl, rfl⟩ ⟨rfl, rfl⟩ ⟨rfl, rfl, rfl⟩⟩

/-- `FR_RECV` leaves the decoder, the bus and the model alone (R107). -/
theorem frRecv_leaves (s : State) : SameDecoder s (frRecv s) ∧ SameBus s (frRecv s) ∧ SameModel s (frRecv s) := by
  by_cases h : s.rxN = some 3 ∧ s.rxbuf.length = 3
  · match hb : s.rxbuf, h.2 with
    | [m, d, sp], _ =>
      rw [frRecv_enabled h.1 hb]
      unfold applyFrame
      split <;> exact ⟨⟨rfl, rfl⟩, ⟨rfl, rfl⟩, ⟨rfl, rfl, rfl⟩⟩
  · rw [frRecv_held h]; exact ⟨.refl s, .refl s, .refl s⟩

/-- `FR_DRAIN` leaves the decoder, the bus and the model alone (R108). -/
theorem frDrain_leaves (n : Byte) (s : State) :
    SameDecoder s (frDrain n s) ∧ SameBus s (frDrain n s) ∧ SameModel s (frDrain n s) := by
  by_cases h : s.rxN = some n ∧ n ≠ 3
  · rw [frDrain_enabled h.1 h.2]; exact ⟨⟨rfl, rfl⟩, ⟨rfl, rfl⟩, ⟨rfl, rfl, rfl⟩⟩
  · rw [frDrain_held h]; exact ⟨.refl s, .refl s, .refl s⟩

/-- Whatever outcome reaches the slave, the decoder and the model are left alone (R104). -/
theorem deliver_leaves (o : XferOutcome) (x : Txn) (s : State) : SameDecoder s (deliver o x s) ∧ SameModel s (deliver o x s) := by
  cases o <;> exact ⟨⟨rfl, rfl⟩, ⟨rfl, rfl, rfl⟩⟩

end Sys2Proof.Machine
end

