-- ==== Sys2Proof/Laws/PerInstr.lean ====
section
/-! SUPPORT. Per-instruction family `EncodesInFormat`: the key of a row belongs to the format in which the opcode table
lists the row, fits that format's width, and is read back from its raw word. -/

namespace Sys2Proof.Laws.EncodesInFormat

/-- The format in which spec/opcode_table.json lists a row. -/
def tableFormatOf : Instr → Format
  | .qeInc00 => .qe
  | .qeInc11 => .qe
  | .qeDec10 => .qe
  | .qeDec01 => .qe
  | .qpHold0 _ _ => .qp
  | .qpHold1 _ _ => .qp
  | .qpInc010 _ => .qp
  | .qpInc101 _ => .qp
  | .qpDec011 _ => .qp
  | .qpDec100 _ => .qp
  | .qpNoSuchChannel _ _ _ => .qp
  | .qdReadE1 => .rd
  | .qdReadE2 => .rd
  | .qdReadE3 => .rd
  | .qdReadE4 => .rd
  | .qdReadE5 => .rd
  | .qdReadE6 => .rd
  | .rdReserved0 => .rd
  | .rdReserved7 => .rd
  | .frSend _ _ _ => .tx
  | .xfDeliver => .xf
  | .xfDrop => .xf
  | .xfPrefix1 => .xf
  | .xfPrefix2 => .xf
  | .frRecv => .rx
  | .frDrain _ => .rx
  | .frxFwdM1 _ => .fr
  | .frxBwdM1 _ => .fr
  | .frxStopM1 _ _ => .fr
  | .frxFwdM2 _ => .fr
  | .frxBwdM2 _ => .fr
  | .frxStopM2 _ _ => .fr
  | .frxFwdM3 _ => .fr
  | .frxBwdM3 _ => .fr
  | .frxStopM3 _ _ => .fr
  | .frxIgnore _ _ _ => .fr
  | .resetMaster _ => .ev
  | .resetSlave => .ev

/-- The channel select beside a key's bits; 0 where the key has none. -/
def keySel : Key → BitVec 3
  | .qp k _ => k
  | _ => 0

/-- The levels beside a key's bits; all low where the key has none. -/
def keyLines : Key → PollLevels
  | .ev _ lines => lines
  | _ => PollLevels.low

/-- The key of `i` is in the table's format for `i`, within its width, and its raw word reads back as the key. -/
def Statement (i : Instr) : Prop :=
  (encode i).format = tableFormatOf i ∧ (encode i).word < 2 ^ (tableFormatOf i).width ∧
    keyOfWord (tableFormatOf i) (keySel (encode i)) (keyLines (encode i)) (encode i).word = .ok (encode i)

/-- Every key reads back from its raw word in its format. -/
theorem keyOfWord_word (key : Key) :
    key.word < 2 ^ key.format.width ∧ keyOfWord key.format (keySel key) (keyLines key) key.word = .ok key := by
  have hlt : key.word < 2 ^ key.format.width := by cases key <;> exact BitVec.isLt _
  refine ⟨hlt, ?_⟩
  unfold keyOfWord
  rw [if_neg (Nat.not_le.mpr hlt)]
  cases key <;> simp only [Key.format, Key.word, keySel, keyLines, BitVec.ofNat_toNat, BitVec.setWidth_eq]

theorem of_format {i : Instr} (h : (encode i).format = tableFormatOf i) : Statement i := by
  obtain ⟨h1, h2⟩ := keyOfWord_word (encode i)
  rw [h] at h1 h2
  exact ⟨h, h1, h2⟩

theorem qeInc00 : Statement .qeInc00 := of_format rfl
theorem qeInc11 : Statement .qeInc11 := of_format rfl
theorem qeDec10 : Statement .qeDec10 := of_format rfl
theorem qeDec01 : Statement .qeDec01 := of_format rfl
theorem qpHold0 (k : PollChan) (b : Level) : Statement (.qpHold0 k b) := of_format rfl
theorem qpHold1 (k : PollChan) (b : Level) : Statement (.qpHold1 k b) := of_format rfl
theorem qpInc010 (k : PollChan) : Statement (.qpInc010 k) := of_format rfl
theorem qpInc101 (k : PollChan) : Statement (.qpInc101 k) := of_format rfl
theorem qpDec011 (k : PollChan) : Statement (.qpDec011 k) := of_format rfl
theorem qpDec100 (k : PollChan) : Statement (.qpDec100 k) := of_format rfl
theorem qpNoSuchChannel (k : BitVec 3) (a b : Level) : Statement (.qpNoSuchChannel k a b) := of_format rfl
theorem qdReadE1 : Statement .qdReadE1 := of_format rfl
theorem qdReadE2 : Statement .qdReadE2 := of_format rfl
theorem qdReadE3 : Statement .qdReadE3 := of_format rfl
theorem qdReadE4 : Statement .qdReadE4 := of_format rfl
theorem qdReadE5 : Statement .qdReadE5 := of_format rfl
theorem qdReadE6 : Statement .qdReadE6 := of_format rfl
theorem rdReserved0 : Statement .rdReserved0 := of_format rfl
theorem rdReserved7 : Statement .rdReserved7 := of_format rfl
theorem frSend (m d sp : Byte) : Statement (.frSend m d sp) := of_format rfl
theorem xfDeliver : Statement .xfDeliver := of_format rfl
theorem xfDrop : Statement .xfDrop := of_format rfl
theorem xfPrefix1 : Statement .xfPrefix1 := of_format rfl
theorem xfPrefix2 : Statement .xfPrefix2 := of_format rfl
theorem frRecv : Statement .frRecv := of_format rfl
theorem frDrain (n : Byte) : Statement (.frDrain n) := of_format rfl
theorem frxFwdM1 (sp : Byte) : Statement (.frxFwdM1 sp) := of_format rfl
theorem frxBwdM1 (sp : Byte) : Statement (.frxBwdM1 sp) := of_format rfl
theorem frxStopM1 (d sp : Byte) : Statement (.frxStopM1 d sp) := of_format rfl
theorem frxFwdM2 (sp : Byte) : Statement (.frxFwdM2 sp) := of_format rfl
theorem frxBwdM2 (sp : Byte) : Statement (.frxBwdM2 sp) := of_format rfl
theorem frxStopM2 (d sp : Byte) : Statement (.frxStopM2 d sp) := of_format rfl
theorem frxFwdM3 (sp : Byte) : Statement (.frxFwdM3 sp) := of_format rfl
theorem frxBwdM3 (sp : Byte) : Statement (.frxBwdM3 sp) := of_format rfl
theorem frxStopM3 (d sp : Byte) : Statement (.frxStopM3 d sp) := of_format rfl
theorem frxIgnore (m d sp : Byte) : Statement (.frxIgnore m d sp) := of_format rfl
theorem resetMaster (lines : PollLevels) : Statement (.resetMaster lines) := of_format rfl
theorem resetSlave : Statement .resetSlave := of_format rfl

end Sys2Proof.Laws.EncodesInFormat
end

