-- ==== Sys2Proof/Laws/Run.lean ====
section
/-! SUPPORT. What a step does on each event form of R75, and runs of several events. -/

namespace Sys2Proof.Machine

/-! ## One event -/

theorem step_qe {s : State} {ab : BitVec 2} {rest : List Event} (h : s.script = .qe ab :: rest) :
    step s = exec (decodeQE ab) (s.withScript rest) :=
  step_of_fetch_some (fetch_event h rfl)

theorem step_qp {s : State} {k : BitVec 3} {ab : BitVec 2} {rest : List Event} (h : s.script = .qp k ab :: rest) :
    step s = exec (decodeQP k (packLAB (keyLevel k s) ab)) (s.withScript rest) :=
  step_of_fetch_some (fetch_event h rfl)

theorem exec_decodeQE (a b : Level) (s : State) : exec (decodeQE (packAB a b)) s = .next (qdEdge a b s) := by
  cases a <;> cases b <;> rfl

/-- Whatever `l` is in the key, the row runs `QD_POLL` on the levels its event samples. -/
theorem exec_decodeQPRow (k : PollChan) (l a b : Level) (s : State) :
    exec (decodeQPRow k (packLAB l (packAB a b))) s = .next (qdPoll k a b s) := by
  cases l <;> cases a <;> cases b <;> rfl

theorem step_evEdge {s : State} {a b : Level} {rest : List Event} (h : s.script = evEdge a b :: rest) :
    step s = .next (qdEdge a b (s.withScript rest)) :=
  (step_qe h).trans (exec_decodeQE a b _)

theorem step_evPoll {s : State} {k : PollChan} {a b : Level} {rest : List Event} (h : s.script = evPoll k a b :: rest) :
    step s = .next (qdPoll k a b (s.withScript rest)) := by
  rw [step_qp h]
  simp only [decodeQP, PollChan.ofSel_sel]
  exact exec_decodeQPRow k _ a b _

theorem step_evRead {s : State} {k : Chan} {rest : List Event} (h : s.script = evRead k :: rest) :
    step s = .next (qdRead k (s.withScript rest)) := by
  rw [step_of_fetch_some (fetch_event h rfl)]
  cases k <;> rfl

theorem step_evSend {s : State} {m d sp : Byte} {rest : List Event} (h : s.script = evSend m d sp :: rest) :
    step s = .next (busTx (frameTxn m d sp s) (s.withScript rest)) := by
  rw [step_of_fetch_some (fetch_event h rfl)]
  simp only [decode, decodeTX, frameByte0_packFrame, frameByte1_packFrame, frameByte2_packFrame]
  rfl

theorem step_evXfer {s : State} {o : XferOutcome} {rest : List Event} (h : s.script = evXfer o :: rest) :
    step s = busXfer o (s.withScript rest) := by
  rw [step_of_fetch_some (fetch_event h rfl)]
  cases o <;> rfl

/-- The receive step by its byte count (R69). -/
theorem step_evRecv {s : State} {n : Byte} {rest : List Event} (h : s.script = evRecv :: rest) (hn : s.rxN = some n) :
    step s = .next (if n = 3 then frRecv (s.withScript rest) else frDrain n (s.withScript rest)) := by
  have hk : fetch s = (some (.rx n), s.withScript rest) := by
    rw [fetch_event h rfl]; simp only [evRecv, keyOf, hn]
  rw [step_of_fetch_some hk]
  simp only [decode, decodeRX]
  by_cases h3 : n = 3
  · rw [if_pos h3, if_pos h3]; rfl
  · rw [if_neg h3, if_neg h3]; rfl

/-- The receive step without a notification is passed over (log 6). -/
theorem step_evRecv_none {s : State} {rest : List Event} (h : s.script = evRecv :: rest) (hn : s.rxN = none) :
    step s = .next (s.withScript rest) := by
  have hk : fetch s = (none, s.withScript rest) := by
    rw [fetch_event h rfl]; simp only [evRecv, keyOf, hn]
  exact step_of_fetch_none hk

/-- The receive step by its frame (R70): the row of the frame received, or passed over where there is none. -/
theorem step_fr {s : State} {rest : List Event} (h : s.script = .fr :: rest) :
    step s = .next (s.withScript rest) ∨ ∃ f, step s = exec (decodeFR f) (s.withScript rest) := by
  cases hf : rxFrame s with
  | none =>
    refine .inl (step_of_fetch_none ?_)
    rw [fetch_event h rfl]; simp only [keyOf, hf]
  | some v =>
    obtain ⟨m, d, sp, u⟩ := v
    refine .inr ⟨packFrame m d sp, step_of_fetch_some (key := .fr (packFrame m d sp)) ?_⟩
    rw [fetch_event h rfl]; simp only [keyOf, hf]

/-- A reset of the slave (R150). -/
theorem step_resetSlave {s : State} {lines : PollLevels} {rest : List Event} (h : s.script = .ev 1 lines :: rest) :
    step s = .next (resetSlave (s.withScript rest)) := by
  rw [step_of_fetch_some (fetch_event h rfl)]
  rfl

/-! ## Several events -/

theorem run_zero (s : State) : run 0 s = .next s := rfl

/-- The first step of a run, whatever it answers. -/
theorem run_step (n : Nat) (s : State) : run (n + 1) s =
    match step s with
    | .next t => run n t
    | .fault r => .fault r
    | .refused r => .refused r := rfl

theorem run_succ {n : Nat} {s t : State} (h : step s = .next t) : run (n + 1) s = run n t := by
  rw [run_step, h]

/-- A run of `n + k` steps is a run of `k` from where `n` ended. -/
theorem run_add {n : Nat} (k : Nat) {s t : State} (h : run n s = .next t) : run (n + k) s = run k t := by
  induction n generalizing s with
  | zero => cases h; rw [Nat.zero_add]
  | succ n ih =>
    rw [run_step] at h
    rw [Nat.succ_add, run_step]
    cases hs : step s with
    | next s' => rw [hs] at h; exact ih h
    | fault r => rw [hs] at h; cases h
    | refused r => rw [hs] at h; cases h

theorem runEvents_nil (s : State) : runEvents [] s = .next (s.withScript []) := rfl

/-- Running events one by one: the first step, then the rest from the state it leaves, if that still has the rest as
its script. -/
theorem runEvents_cons {e : Event} {es : List Event} {s t : State} (h : step (s.withScript (e :: es)) = .next t)
    (hs : t.script = es) : runEvents (e :: es) s = runEvents es t := by
  unfold runEvents
  rw [List.length_cons, run_succ h]
  congr 1
  subst hs
  rfl

/-! ## The script is not touched by what a row does -/

section Script
variable (es : List Event) (s : State)

theorem addCnt_withScript (k : Chan) (d : Int) : addCnt k d (s.withScript es) = (addCnt k d s).withScript es := rfl

theorem qdEdge_withScript (a b : Level) : qdEdge a b (s.withScript es) = (qdEdge a b s).withScript es := by
  unfold qdEdge; split <;> rfl

theorem qdPoll_withScript (k : PollChan) (a b : Level) : qdPoll k a b (s.withScript es) = (qdPoll k a b s).withScript es := by
  by_cases h : a = s.lastA.get k
  · rw [qdPoll_hold h, qdPoll_hold (by exact h)]
  · rw [qdPoll_changed h, qdPoll_changed (by exact h)]
    rfl

theorem withScript_withScript (es' : List Event) : (s.withScript es').withScript es = s.withScript es := rfl

end Script

/-! ## Runs of one kind -/

theorem runEvents_evEdge (a b : Level) (es : List Event) (s : State) :
    runEvents (evEdge a b :: es) s = runEvents es (qdEdge a b s) := by
  rw [runEvents_cons (step_evEdge rfl) (by rw [withScript_withScript, qdEdge_withScript]; rfl)]
  rw [withScript_withScript, qdEdge_withScript]
  rfl

theorem runEvents_evPoll (k : PollChan) (a b : Level) (es : List Event) (s : State) :
    runEvents (evPoll k a b :: es) s = runEvents es (qdPoll k a b s) := by
  rw [runEvents_cons (step_evPoll rfl) (by rw [withScript_withScript, qdPoll_withScript]; rfl)]
  rw [withScript_withScript, qdPoll_withScript]
  rfl

theorem runEvents_evRead (k : Chan) (es : List Event) (s : State) :
    runEvents (evRead k :: es) s = runEvents es (qdRead k s) := by
  rw [runEvents_cons (step_evRead rfl) rfl]
  rfl

theorem runEvents_evSend (m d sp : Byte) (es : List Event) (s : State) :
    runEvents (evSend m d sp :: es) s = runEvents es (busTx (frameTxn m d sp s) s) := by
  rw [runEvents_cons (step_evSend rfl) rfl]
  rfl

/-- A transport step that is enabled and admitted, then the rest (R104). -/
theorem runEvents_evXfer {o : XferOutcome} {x : Txn} {txns : List Txn} {es : List Event} {s : State}
    (hw : s.wire = x :: txns) (hn : s.rxN = none) (ha : admitted s.params.xferFaults o = true) :
    runEvents (evXfer o :: es) s = runEvents es (deliver o x (s.withWire txns)) := by
  have h : step (s.withScript (evXfer o :: es)) = .next (deliver o x ((s.withScript es).withWire txns)) := by
    rw [step_evXfer rfl]
    exact busXfer_moves hw hn ha
  rw [runEvents_cons h (by cases o <;> rfl)]
  cases o <;> rfl

/-- The receive step on a 3-byte notification, then the rest (R107). -/
theorem runEvents_evRecv_frame {m d sp : Byte} {es : List Event} {s : State} (hn : s.rxN = some 3)
    (hb : s.rxbuf = [m, d, sp]) :
    runEvents (evRecv :: es) s = runEvents es (applyFrame m d sp (s.withRx [] none)) := by
  have h : step (s.withScript (evRecv :: es)) = .next (applyFrame m d sp ((s.withScript es).withRx [] none)) := by
    rw [step_evRecv (s := s.withScript (evRecv :: es)) rfl hn, if_pos rfl]
    exact congrArg _ (frRecv_enabled hn hb)
  cases hm : motorOfId m with
  | none =>
    rw [applyFrame_unknown hm] at h ⊢
    rw [runEvents_cons h rfl]
    rfl
  | some k =>
    rw [motorOfId_eq_some.mp hm, applyFrame_known] at h ⊢
    rw [runEvents_cons h rfl]
    rfl

/-- The receive step on a notification of any other byte count, then the rest (R108). -/
theorem runEvents_evRecv_drain {n : Byte} {es : List Event} {s : State} (hn : s.rxN = some n) (h3 : n ≠ 3) :
    runEvents (evRecv :: es) s = runEvents es (s.withRx [] none) := by
  have h : step (s.withScript (evRecv :: es)) = .next ((s.withScript es).withRx [] none) := by
    rw [step_evRecv (s := s.withScript (evRecv :: es)) rfl hn, if_neg h3]
    exact congrArg _ (frDrain_enabled hn h3)
  rw [runEvents_cons h rfl]
  rfl

end Sys2Proof.Machine
end

