-- ==== Sys2Proof/Laws/Script.lean ====
section
/-! SUPPORT. The order of the master's main context (R52): the scripts of its iterations keep it, events of other agents
may be put in anywhere, and it is what R86 assumes of a read-out. -/

namespace Sys2Proof.Machine

theorem loopAfter_append (es fs : List Event) (p : LoopPos) :
    loopAfter p (es ++ fs) = (loopAfter p es).bind fun q => loopAfter q fs := by
  induction es generalizing p with
  | nil => rfl
  | cons e es ih =>
    simp only [List.cons_append, loopAfter]
    cases loopNext p e with
    | none => rfl
    | some q => exact ih q

/-- An event that leaves the loop where it stands may be put in anywhere (R52: firings "at any point"). -/
theorem loopAfter_insert {e : Event} (h : ∀ p, loopNext p e = some p) (es fs : List Event) (p : LoopPos) :
    loopAfter p (es ++ e :: fs) = loopAfter p (es ++ fs) := by
  rw [loopAfter_append, loopAfter_append]
  congr 1
  funext q
  simp only [loopAfter, h]

/-- Reads are made in the order E1 to E6 wherever a read-out may begin (R86). -/
theorem loopAfter_readAll {p : LoopPos} (h : p.nextRead = some .e1) : loopAfter p readAll = some .start := by
  cases p with
  | polls k => cases h
  | passed => rfl
  | sent => rfl
  | reads k => cases h; rfl

/-- An iteration begun where a pass may begin ends where a pass may begin. -/
theorem loopAfter_iteration (it : LoopIteration) {p : LoopPos} (h : p.nextPoll = some .e2) :
    ∃ q, loopAfter p it.events = some q ∧ q.nextPoll = some .e2 := by
  have tail : ∀ q : LoopPos, q = .passed ∨ q = .sent →
      ∃ r, loopAfter q (if it.telemetry then readAll else []) = some r ∧ r.nextPoll = some .e2 := by
    rintro q (rfl | rfl) <;> split
    · exact ⟨_, loopAfter_readAll rfl, rfl⟩
    · exact ⟨_, rfl, rfl⟩
    · exact ⟨_, loopAfter_readAll rfl, rfl⟩
    · exact ⟨_, rfl, rfl⟩
  have pass : loopNext p (evPass it.a it.b) = some .passed := if_pos h
  simp only [LoopIteration.events, loopAfter, pass]
  split
  · unfold cmdEvents
    split
    · exact tail .sent (.inr rfl)
    · exact tail .passed (.inl rfl)
  · exact tail .passed (.inl rfl)

/-- The script of any iterations, one after another, keeps the order (R52). -/
theorem inLoopOrder_iterations (its : List LoopIteration) : InLoopOrder (its.flatMap LoopIteration.events) := by
  suffices ∀ p : LoopPos, p.nextPoll = some .e2 → (loopAfter p (its.flatMap LoopIteration.events)).isSome = true from
    this .start rfl
  induction its with
  | nil => exact fun _ _ => rfl
  | cons it its ih =>
    intro p hp
    obtain ⟨q, hq, hn⟩ := loopAfter_iteration it hp
    rw [List.flatMap_cons, loopAfter_append, hq]
    exact ih q hn

/-- In a read-out the only event that moves the loop is the next read, but for a reset of the master. -/
theorem loopNext_reads {c : Chan} {e : Event} {q : LoopPos} (h : loopNext (.reads c) e = some q)
    (hr : ∀ lines, e ≠ .ev 0 lines) :
    DuringReadOut e ∧ (q = .reads c ∨ e = evRead c ∧ q = afterRead c) := by
  cases e with
  | qe ab =>
    have hab : ∀ ab : BitVec 2, Event.qe ab = evEdge (ab.getLsbD 1) (ab.getLsbD 0) := by decide
    cases h
    exact ⟨hab ab ▸ .firing _ _, .inl rfl⟩
  | qp k ab =>
    simp only [loopNext, LoopPos.nextPoll] at h
    split at h
    · cases h
    · cases h
  | rd k =>
    have hk : ∀ (k : BitVec 3) (d : Chan), chanOfSel k = some d → k = readSel d := by
      intro k d; cases d <;> revert k <;> decide
    simp only [loopNext] at h
    split at h
    · rename_i d hd
      split at h
      · rename_i hc
        cases hc
        cases h
        cases hk k c hd
        exact ⟨.read c, .inr ⟨rfl, rfl⟩⟩
      · cases h
    · cases h
  | tx f => cases h
  | xf o =>
    have ho : ∀ o : BitVec 2, o = 0b00 ∨ o = 0b01 ∨ o = 0b10 ∨ o = 0b11 := by decide
    cases h
    obtain rfl | rfl | rfl | rfl := ho o
    · exact ⟨.xfer .deliver, .inl rfl⟩
    · exact ⟨.xfer .drop, .inl rfl⟩
    · exact ⟨.xfer .prefix1, .inl rfl⟩
    · exact ⟨.xfer .prefix2, .inl rfl⟩
  | rx => cases h; exact ⟨.recv, .inl rfl⟩
  | fr => cases h; exact ⟨.recvFrame, .inl rfl⟩
  | ev t lines =>
    have ht : ∀ t : BitVec 1, t = 0 ∨ t = 1 := by decide
    obtain rfl | rfl := ht t
    · exact absurd rfl (hr lines)
    · cases h; exact ⟨.slaveReset lines, .inl rfl⟩
  | ps w => cases h

/-- R86 from R52: in a script that keeps the loop's order, what comes between `READ 1` and the read of channel `k` of
the same read-out (no reset of the master, no earlier read of `k`) is what `ReadOutIsASnapshot` admits: no poll. -/
theorem duringReadOut_of_inLoopOrder {before es : List Event} {k : PollChan}
    (h : InLoopOrder (before ++ evRead .e1 :: es ++ [evRead k.chan]))
    (hk : ∀ e ∈ es, e ≠ evRead k.chan) (hr : ∀ e ∈ es, ∀ lines, e ≠ .ev 0 lines) : ∀ e ∈ es, DuringReadOut e := by
  have go : ∀ (es : List Event) (c : Chan), (readSel c).toNat ≤ (readSel k.chan).toNat →
      (∀ e ∈ es, e ≠ evRead k.chan) → (∀ e ∈ es, ∀ lines, e ≠ .ev 0 lines) →
      (loopAfter (.reads c) (es ++ [evRead k.chan])).isSome = true → ∀ e ∈ es, DuringReadOut e := by
    intro es
    induction es with
    | nil => intro _ _ _ _ _ e he; cases he
    | cons e es ih =>
      intro c hc hk hr h
      rw [List.cons_append, loopAfter] at h
      cases hn : loopNext (.reads c) e with
      | none => rw [hn] at h; cases h
      | some q =>
        rw [hn] at h
        obtain ⟨hd, hq⟩ := loopNext_reads hn (hr e (.head _))
        have rest : ∀ c', (readSel c').toNat ≤ (readSel k.chan).toNat → q = .reads c' → ∀ e ∈ es, DuringReadOut e := by
          rintro c' hc' rfl
          exact ih c' hc' (fun e he => hk e (.tail _ he)) (fun e he => hr e (.tail _ he)) h
        refine List.forall_mem_cons.mpr ⟨hd, ?_⟩
        obtain hq | ⟨he, hq⟩ := hq
        · exact rest c hc hq
        · have hne : c ≠ k.chan := fun hck => hk e (.head _) (hck ▸ he)
          have next : ∀ c : Chan, c ≠ k.chan → (readSel c).toNat ≤ (readSel k.chan).toNat →
              ∃ c', afterRead c = .reads c' ∧ (readSel c').toNat ≤ (readSel k.chan).toNat := by
            intro c; cases c <;> cases k <;> first | exact fun h => absurd rfl h | skip
            all_goals first
              | exact fun _ h => absurd h (by decide)
              | exact fun _ _ => ⟨_, rfl, by decide⟩
          obtain ⟨c', ha, hc'⟩ := next c hne hc
          exact rest c' hc' (hq.trans ha)
  rw [InLoopOrder, List.append_assoc, loopAfter_append] at h
  cases hb : loopAfter .start before with
  | none => rw [hb] at h; cases h
  | some p =>
    rw [hb] at h
    have h2 : (loopAfter p (evRead .e1 :: (es ++ [evRead k.chan]))).isSome = true := h
    rw [loopAfter] at h2
    cases hn : loopNext p (evRead .e1) with
    | none => rw [hn] at h2; cases h2
    | some q =>
      rw [hn] at h2
      have hq : q = .reads .e2 := by
        have : loopNext p (evRead .e1) = if p.nextRead = some .e1 then some (afterRead .e1) else none := rfl
        rw [this] at hn
        split at hn
        · cases hn; rfl
        · cases hn
      subst hq
      exact go es .e2 (by cases k <;> decide) hk hr h2

end Sys2Proof.Machine
end

