-- ==== Sys2Proof/Tests/Slice0.lean ====
section
/-! SUPPORT. Tests of this model: ill-formed terms refused, words written out from the tables of 30_encoding.md, one step
each of the vectors of 95_test_vectors.md (named at each theorem), and a witness for the hypotheses of every
obligation that has some. -/

namespace Sys2Proof.Tests

open Sys2Proof.Machine

/-! ## Small states -/

/-- The vectors' parameters: 16-bit counters unless a vector says otherwise, all transport faults admitted. -/
def params (w : Nat) : Params := ⟨w, 0x42, 32, .sample, ⟨true, true, true⟩⟩

/-- A block right after power-up with every line low and counters of `w` bits. -/
def calm (w : Nat) : State :=
  { State.reset with params := params w, lastA := PollLevels.low }

/-- `calm 16` with a notification of the three bytes `m`, `d`, `sp` in progress. -/
def holding (m d sp : Byte) : State := (calm 16).withRx [m, d, sp] (some 3)

/-- What a next state shows of itself through `f`. -/
def seen {α : Type} (o : Host.Outcome State Fault Refusal) (f : State → α) : Option α :=
  match o with
  | .next s => some (f s)
  | .fault _ => none
  | .refused _ => none

/-- The refusal an outcome is, if it is one. -/
def refusal (o : Host.Outcome State Fault Refusal) : Option Refusal :=
  match o with
  | .next _ => none
  | .fault _ => none
  | .refused r => some r

/-! ## Well-formedness: one ill-formed term for each check -/

theorem test_wf_select_polled_channel : Instr.wellFormed (.qpNoSuchChannel 2 true false) = false := by decide
theorem test_wf_select_six : Instr.wellFormed (.qpNoSuchChannel 6 true false) = false := by decide
theorem test_wf_select_seven : Instr.wellFormed (.qpNoSuchChannel 7 true false) = true := by decide
theorem test_wf_drain_three : Instr.wellFormed (.frDrain 3) = false := by decide
theorem test_wf_stop_m1_forward : Instr.wellFormed (.frxStopM1 1 0) = false := by decide
theorem test_wf_stop_m1_backward : Instr.wellFormed (.frxStopM1 2 0) = false := by decide
theorem test_wf_stop_m2_forward : Instr.wellFormed (.frxStopM2 1 0) = false := by decide
theorem test_wf_stop_m2_backward : Instr.wellFormed (.frxStopM2 2 0) = false := by decide
theorem test_wf_stop_m3_forward : Instr.wellFormed (.frxStopM3 1 0) = false := by decide
theorem test_wf_stop_m3_backward : Instr.wellFormed (.frxStopM3 2 0) = false := by decide
theorem test_wf_ignore_known_motor :
    (Instr.wellFormed (.frxIgnore 1 0 0), Instr.wellFormed (.frxIgnore 2 0 0), Instr.wellFormed (.frxIgnore 3 0 0)) =
      (false, false, false) := by decide

/-! ## Decoding: a word of every row, written out from the tables R63 to R72 -/

theorem test_decode_qe :
    [decode (.qe 0b00), decode (.qe 0b11), decode (.qe 0b10), decode (.qe 0b01)] =
      [.qeInc00, .qeInc11, .qeDec10, .qeDec01] := by decide
theorem test_decode_qp_hold :
    [decode (.qp 4 0b000), decode (.qp 4 0b001), decode (.qp 4 0b110), decode (.qp 4 0b111)] =
      [.qpHold0 .e4 false, .qpHold0 .e4 true, .qpHold1 .e4 false, .qpHold1 .e4 true] := by decide
theorem test_decode_qp_count :
    [decode (.qp 2 0b010), decode (.qp 3 0b101), decode (.qp 5 0b011), decode (.qp 6 0b100)] =
      [.qpInc010 .e2, .qpInc101 .e3, .qpDec011 .e5, .qpDec100 .e6] := by decide
/-- T2.2 vectors 12 and 13. -/
theorem test_decode_qp_no_such_channel :
    [decode (.qp 1 0b010), decode (.qp 7 0b000), decode (.qp 0 0b000)] =
      [.qpNoSuchChannel 1 true false, .qpNoSuchChannel 7 false false, .qpNoSuchChannel 0 false false] := by decide
theorem test_decode_rd :
    [decode (.rd 0b001), decode (.rd 0b010), decode (.rd 0b011), decode (.rd 0b100), decode (.rd 0b101), decode (.rd 0b110)] =
      [.qdReadE1, .qdReadE2, .qdReadE3, .qdReadE4, .qdReadE5, .qdReadE6] := by decide
theorem test_decode_rd_reserved : [decode (.rd 0b000), decode (.rd 0b111)] = [.rdReserved0, .rdReserved7] := by decide
/-- T2.4 vectors 1 and 10. -/
theorem test_decode_tx : [decode (.tx 0x020232), decode (.tx 0x000507)] = [.frSend 2 2 50, .frSend 0 5 7] := by decide
theorem test_decode_xf :
    [decode (.xf 0b00), decode (.xf 0b01), decode (.xf 0b10), decode (.xf 0b11)] =
      [.xfDeliver, .xfDrop, .xfPrefix1, .xfPrefix2] := by decide
theorem test_decode_rx :
    [decode (.rx 0x03), decode (.rx 0x00), decode (.rx 0x02), decode (.rx 0xFF)] =
      [.frRecv, .frDrain 0, .frDrain 2, .frDrain 255] := by decide
/-- T2.6 vectors 1, 2, 3 and 11. -/
theorem test_decode_fr_m1 :
    [decode (.fr 0x0101C8), decode (.fr 0x010200), decode (.fr 0x01004D), decode (.fr 0x01FF09)] =
      [.frxFwdM1 200, .frxBwdM1 0, .frxStopM1 0 77, .frxStopM1 255 9] := by decide
/-- T2.6 vectors 4, 5, 6 and 10. -/
theorem test_decode_fr_m2 :
    [decode (.fr 0x0201FF), decode (.fr 0x020232), decode (.fr 0x020001), decode (.fr 0x020309)] =
      [.frxFwdM2 255, .frxBwdM2 50, .frxStopM2 0 1, .frxStopM2 3 9] := by decide
/-- T2.6 vectors 7 to 9. -/
theorem test_decode_fr_m3 :
    [decode (.fr 0x030180), decode (.fr 0x030240), decode (.fr 0x030000)] =
      [.frxFwdM3 128, .frxBwdM3 64, .frxStopM3 0 0] := by decide
/-- T2.6 vectors 12 to 14. -/
theorem test_decode_fr_ignore :
    [decode (.fr 0x000164), decode (.fr 0x040164), decode (.fr 0xFF0201)] =
      [.frxIgnore 0 1 100, .frxIgnore 4 1 100, .frxIgnore 255 2 1] := by decide
theorem test_decode_ev :
    [decode (.ev 0b0 ⟨true, false, true, false, false⟩), decode (.ev 0b1 PollLevels.low)] =
      [.resetMaster ⟨true, false, true, false, false⟩, .resetSlave] := by decide

/-- A raw word with a bit above its format's width, and a pass, are rejected by name. -/
theorem test_raw_rejected :
    (keyOfWord .qe 0 PollLevels.low 4).toOption = none ∧ (keyOfWord .fr 0 PollLevels.low 0x1000000).toOption = none ∧
    (keyOfWord .ps 0 PollLevels.low 0).toOption = none := by decide
theorem test_table_words :
    [decodeTableWord 1 0, decodeTableWord 2 0b10, decodeTableWord 3 0b111, decodeTableWord 8 0x03, decodeTableWord 24 0x020232,
      decodeTableWord 5 0] =
      [some (.resetMaster PollLevels.low), some .qeDec10, some .rdReserved7, some .qeInc11,
        some (.frxBwdM2 50), none] := by decide
/-- A word of the table placed after reset is what the next step runs. -/
theorem test_placed_frame_runs_first :
    seen (step (State.withFetchWord State.reset 24 0x020232)) (·.act.get .m2) = some (some ⟨.bwd, 50⟩) := by decide
theorem test_placed_reserved_select_is_refused :
    refusal (step (State.withFetchWord State.reset 3 0b111)) = some .noSuchChannel := by decide

/-! ## Quadrature decoder -/

/-- T2.1 vectors 1 and 7. -/
theorem test_qeInc00 :
    seen (exec .qeInc00 (calm 16)) (·.cnt.c1) = some 1 ∧
    seen (exec .qeInc00 ((calm 16).withCnt ⟨32767, 0, 0, 0, 0, 0⟩)) (·.cnt.c1) = some (-32768) := by decide
/-- T2.1 vectors 5 and 9. -/
theorem test_qeInc11 :
    seen (exec .qeInc11 ((calm 16).withCnt ⟨5, 0, 0, 0, 0, 0⟩)) (·.cnt) = some ⟨6, 0, 0, 0, 0, 0⟩ ∧
    seen (exec .qeInc11 ((calm 32).withCnt ⟨2147483647, 0, 0, 0, 0, 0⟩)) (·.cnt.c1) = some (-2147483648) := by decide
/-- T2.1 vectors 8 and 12. -/
theorem test_qeDec10 :
    seen (exec .qeDec10 ((calm 16).withCnt ⟨-32768, 0, 0, 0, 0, 0⟩)) (·.cnt.c1) = some 32767 ∧
    seen (exec .qeDec10 ((calm 2).withCnt ⟨-2, 0, 0, 0, 0, 0⟩)) (·.cnt.c1) = some 1 := by decide
/-- T2.1 vectors 4 and 10. -/
theorem test_qeDec01 :
    seen (exec .qeDec01 (calm 16)) (·.cnt.c1) = some (-1) ∧
    seen (exec .qeDec01 ((calm 32).withCnt ⟨-2147483648, 0, 0, 0, 0, 0⟩)) (·.cnt.c1) = some 2147483647 := by decide
/-- T2.1 vector 11. -/
theorem test_edge_wraps_at_two_bits :
    seen (exec .qeInc00 ((calm 2).withCnt ⟨1, 0, 0, 0, 0, 0⟩)) (·.cnt.c1) = some (-2) := by decide

/-- The state of T2.2: `lastA[4]` = 1. -/
def high4 : State := (calm 16).withLastA ⟨false, false, true, false, false⟩

/-- T2.2 vectors 1 and 2. -/
theorem test_qpHold0 :
    seen (exec (.qpHold0 .e4 true) (calm 16)) (fun t => (t.cnt.c4, t.lastA.a4)) = some (0, false) := by decide
/-- T2.2 vector 3. -/
theorem test_qpHold1 :
    seen (exec (.qpHold1 .e4 false) high4) (fun t => (t.cnt.c4, t.lastA.a4)) = some (0, true) := by decide
/-- T2.2 vectors 5 and 10. -/
theorem test_qpInc010 :
    seen (exec (.qpInc010 .e4) (calm 16)) (fun t => (t.cnt.c4, t.lastA.a4)) = some (1, true) ∧
    seen (exec (.qpInc010 .e6) ((calm 16).withCnt ⟨0, 0, 0, 0, 0, 32767⟩)) (fun t => (t.cnt.c6, t.lastA.a6)) =
      some (-32768, true) := by decide
/-- T2.2 vector 6. -/
theorem test_qpInc101 :
    seen (exec (.qpInc101 .e4) high4) (fun t => (t.cnt.c4, t.lastA.a4)) = some (1, false) := by decide
/-- T2.2 vector 7. -/
theorem test_qpDec011 :
    seen (exec (.qpDec011 .e4) (calm 16)) (fun t => (t.cnt.c4, t.lastA.a4)) = some (-1, true) := by decide
/-- T2.2 vectors 8 and 11. -/
theorem test_qpDec100 :
    seen (exec (.qpDec100 .e4) high4) (fun t => (t.cnt.c4, t.lastA.a4)) = some (-1, false) ∧
    seen (exec (.qpDec100 .e2) (((calm 16).withCnt ⟨0, -32768, 0, 0, 0, 0⟩).withLastA ⟨true, false, false, false, false⟩))
      (fun t => (t.cnt.c2, t.lastA.a2)) = some (32767, false) := by decide
/-- T2.2 vector 13. -/
theorem test_qpNoSuchChannel : refusal (exec (.qpNoSuchChannel 7 false false) (calm 16)) = some .noSuchChannel := by decide
/-- T2.2 vectors 14 and 15: what a poll after the reset of the master does depends on `P_LASTA_INIT`. -/
theorem test_poll_key_reads_lastA :
    keyOf high4 (evPoll .e4 true true) = some (.qp 4 0b111) ∧ keyOf (calm 16) (evPoll .e4 true true) = some (.qp 4 0b011) := by
  decide
/-- P1 line 1: `PASS 00 10 00 11 00`. -/
theorem test_pass_expands_in_order :
    passEvents 0b0010001100 =
      [.qp 2 0b00, .qp 3 0b10, .qp 4 0b00, .qp 5 0b11, .qp 6 0b00] := by decide

/-- The counters of scenario S-D. -/
def counted : State := (calm 16).withCnt ⟨5, -3, 0, 12, -7, 1⟩

/-- T2.3 vectors 1 and 2. -/
theorem test_qdRead :
    [seen (exec .qdReadE1 counted) (·.readPort), seen (exec .qdReadE2 counted) (·.readPort),
      seen (exec .qdReadE3 counted) (·.readPort), seen (exec .qdReadE4 counted) (·.readPort),
      seen (exec .qdReadE5 counted) (·.readPort), seen (exec .qdReadE6 counted) (·.readPort)] =
    [some (some (.e1, 5)), some (some (.e2, -3)), some (some (.e3, 0)), some (some (.e4, 12)), some (some (.e5, -7)),
      some (some (.e6, 1))] := by decide
/-- T2.3 vectors 3 and 4. -/
theorem test_rdReserved :
    refusal (exec .rdReserved0 counted) = some .noSuchChannel ∧ refusal (exec .rdReserved7 counted) = some .noSuchChannel := by
  decide

/-! ## Frame codec -/

/-- The transaction of T2.5, to the vectors' address. -/
def txn (m d sp : Byte) : Txn := ⟨0x42, m, d, sp⟩

/-- T2.5's start: one transaction under way. -/
def sending : State := (calm 16).withWire [txn 2 2 50]

/-- T2.4 vectors 1 and 10. -/
theorem test_frSend :
    seen (exec (.frSend 2 2 50) (calm 16)) (fun t => (t.busLog, t.wire)) = some ([txn 2 2 50], [txn 2 2 50]) ∧
    seen (exec (.frSend 0 5 7) sending) (fun t => (t.busLog, t.wire)) = some ([txn 0 5 7], [txn 2 2 50, txn 0 5 7]) := by decide
/-- T2.5 vectors 1 and 5. -/
theorem test_xfDeliver :
    seen (exec .xfDeliver sending) (fun t => (t.wire, t.rxbuf, t.rxN)) = some ([], [2, 2, 50], some 3) ∧
    seen (exec .xfDeliver ((calm 16).withWire [txn 1 1 9, txn 3 2 8])) (fun t => (t.wire, t.rxbuf)) =
      some ([txn 3 2 8], [1, 1, 9]) := by decide
/-- T2.5 vector 2. -/
theorem test_xfDrop : seen (exec .xfDrop sending) (fun t => (t.wire, t.rxbuf, t.rxN)) = some ([], [], none) := by decide
/-- T2.5 vector 3. -/
theorem test_xfPrefix1 : seen (exec .xfPrefix1 sending) (fun t => (t.wire, t.rxbuf, t.rxN)) = some ([], [2], some 1) := by
  decide
/-- T2.5 vector 4. -/
theorem test_xfPrefix2 : seen (exec .xfPrefix2 sending) (fun t => (t.wire, t.rxbuf, t.rxN)) = some ([], [2, 2], some 2) := by
  decide
/-- T2.5 vectors 8 to 10. -/
theorem test_xf_not_admitted :
    let none' : State := { sending with params := { params 16 with xferFaults := ⟨false, false, false⟩ } }
    let drop : State := { sending with params := { params 16 with xferFaults := ⟨true, false, false⟩ } }
    refusal (exec .xfDrop none') = some .transportOutcomeNotAdmitted ∧
    refusal (exec .xfPrefix2 drop) = some .transportOutcomeNotAdmitted ∧
    seen (exec .xfDeliver none') (·.rxN) = some (some 3) := by decide
/-- T2.5 vector 6: held while a notification is in progress. -/
theorem test_xf_held : seen (exec .xfDrop (sending.withRx [1, 1, 9] (some 3))) (·.wire) = some [txn 2 2 50] := by decide
/-- T2.6 vectors 5 and 13. -/
theorem test_frRecv :
    seen (exec .frRecv (holding 2 2 50)) (fun t => (t.act, t.actLog, t.rxbuf, t.rxN)) =
      some (⟨none, some ⟨.bwd, 50⟩, none⟩, [⟨.m2, ⟨.bwd, 50⟩⟩], [], none) ∧
    seen (exec .frRecv (holding 4 1 100)) (fun t => (t.act, t.actLog, t.rxbuf, t.rxN)) =
      some (ActRegs.unset, [], [], none) := by decide
/-- T2.7 vectors 1 and 4. -/
theorem test_frDrain :
    seen (exec (.frDrain 0) ((calm 16).withRx [] (some 0))) (fun t => (t.act, t.actLog, t.rxbuf, t.rxN)) =
      some (ActRegs.unset, [], [], none) ∧
    seen (exec (.frDrain 4) ((calm 16).withRx [1, 1, 200, 7] (some 4))) (fun t => (t.act, t.actLog, t.rxbuf, t.rxN)) =
      some (ActRegs.unset, [], [], none) := by decide
/-- T2.6 vectors 1 to 3 and 11. -/
theorem test_frx_m1 :
    [seen (exec (.frxFwdM1 200) (holding 1 1 200)) (·.act), seen (exec (.frxBwdM1 0) (holding 1 2 0)) (·.act),
      seen (exec (.frxStopM1 0 77) (holding 1 0 77)) (·.act), seen (exec (.frxStopM1 255 9) (holding 1 255 9)) (·.act)] =
    [some ⟨some ⟨.fwd, 200⟩, none, none⟩, some ⟨some ⟨.bwd, 0⟩, none, none⟩, some ⟨some ⟨.stop, 77⟩, none, none⟩,
      some ⟨some ⟨.stop, 9⟩, none, none⟩] := by decide
/-- T2.6 vectors 4 to 6 and 10. -/
theorem test_frx_m2 :
    [seen (exec (.frxFwdM2 255) (holding 2 1 255)) (·.act), seen (exec (.frxBwdM2 50) (holding 2 2 50)) (·.act),
      seen (exec (.frxStopM2 0 1) (holding 2 0 1)) (·.act), seen (exec (.frxStopM2 3 9) (holding 2 3 9)) (·.act)] =
    [some ⟨none, some ⟨.fwd, 255⟩, none⟩, some ⟨none, some ⟨.bwd, 50⟩, none⟩, some ⟨none, some ⟨.stop, 1⟩, none⟩,
      some ⟨none, some ⟨.stop, 9⟩, none⟩] := by decide
/-- T2.6 vectors 7 to 9. -/
theorem test_frx_m3 :
    [seen (exec (.frxFwdM3 128) (holding 3 1 128)) (·.act), seen (exec (.frxBwdM3 64) (holding 3 2 64)) (·.act),
      seen (exec (.frxStopM3 0 0) (holding 3 0 0)) (·.act)] =
    [some ⟨none, none, some ⟨.fwd, 128⟩⟩, some ⟨none, none, some ⟨.bwd, 64⟩⟩, some ⟨none, none, some ⟨.stop, 0⟩⟩] := by decide
/-- T2.6 vectors 12 and 14. -/
theorem test_frxIgnore :
    seen (exec (.frxIgnore 0 1 100) (holding 0 1 100)) (fun t => (t.act, t.actLog, t.rxN)) = some (ActRegs.unset, [], none) ∧
    seen (exec (.frxIgnore 255 2 1) (holding 255 2 1)) (fun t => (t.act, t.actLog, t.rxN)) = some (ActRegs.unset, [], none) := by
  decide
/-- T2.6: a command overwrites the register's previous state. -/
theorem test_command_overwrites :
    seen (exec .frRecv ((holding 2 0 30).withAct ⟨none, some ⟨.fwd, 100⟩, none⟩)) (·.act.m2) = some (some ⟨.stop, 30⟩) := by
  decide
/-- T2.8. -/
theorem test_dirdecode :
    [dirdecode 0, dirdecode 1, dirdecode 2, dirdecode 3, dirdecode 4, dirdecode 127, dirdecode 255] =
      [.stop, .fwd, .bwd, .stop, .stop, .stop, .stop] := by decide
/-- T2.4 vectors 1 to 9 (a literal that is no number is `none`). -/
theorem test_producer :
    [producer 6 'b' (some 50), producer 5 'f' (some 200), producer 7 's' (some 0), producer 5 'b' (some 300),
      producer 7 'x' (some (-5)), producer 6 'f' none, producer 6 'F' (some 10), producer 4 'f' (some 10),
      producer 8 'f' (some 10)] =
    [some (2, 2, 50), some (1, 1, 200), some (3, 0, 0), some (1, 2, 255), some (3, 0, 0), some (2, 1, 0), some (2, 0, 10),
      none, none] := by decide

/-- R52: pass, send, reads, with a firing anywhere between, is the loop's order. -/
theorem test_loop_order :
    InLoopOrder ([evPass PollLevels.low PollLevels.low, evEdge true true, evSend 2 2 50, evRead .e1, evEdge true false,
      evRead .e2, evRecv, evRead .e3, evRead .e4, evRead .e5, evRead .e6] ++ [evPoll .e2 true false]) := by decide
/-- R52: no second send in an iteration, no send before the pass is done, no poll in a read-out, no send after it. -/
theorem test_loop_order_kept :
    ¬ InLoopOrder [evPass PollLevels.low PollLevels.low, evSend 2 2 50, evSend 2 2 50] ∧
    ¬ InLoopOrder [evPoll .e2 true false, evSend 2 2 50] ∧
    ¬ InLoopOrder [evPass PollLevels.low PollLevels.low, evRead .e1, evPoll .e2 true false] ∧
    ¬ InLoopOrder ([evPass PollLevels.low PollLevels.low] ++ readAll ++ [evSend 2 2 50]) := by decide

/-! ## Reset -/

/-- T2.11 vectors 1 and 2. -/
theorem test_resetMaster :
    seen (exec (.resetMaster ⟨true, false, true, false, false⟩) counted) (fun t => (t.cnt, t.lastA)) =
      some (Counters.zero, ⟨true, false, true, false, false⟩) ∧
    seen (exec (.resetMaster ⟨true, false, true, false, false⟩) { counted with params := { params 16 with lastAInit := .zero } })
      (·.lastA) = some PollLevels.low := by decide
/-- T2.11 vectors 3 and 4. -/
theorem test_resetSlave :
    seen (exec .resetSlave (((calm 16).withAct ⟨some ⟨.fwd, 5⟩, some ⟨.bwd, 6⟩, none⟩).withRx [2] (some 1)))
      (fun t => (t.act, t.rxbuf, t.rxN)) = some (ActRegs.unset, [], none) ∧
    seen (exec .resetSlave sending) (·.wire) = some [txn 2 2 50] := by decide

/-! ## Witnesses: for each obligation with hypotheses, a concrete case that meets them all -/

theorem test_witness_EncodeThenDecodeGivesTheRow :
    Instr.wellFormed (.frxStopM1 255 9) = true ∧ Instr.wellFormed (.frxStopM1 0 0) = true ∧
    Instr.wellFormed (.frxIgnore 4 1 100) = true ∧ Instr.wellFormed (.frDrain 4) = true := by decide
theorem test_witness_EveryKeySelectsOneWellFormedRow :
    Key.canonical (.qp 7 0b011) = true ∧ Key.canonical (.qp 2 0b111) = true ∧
    Key.canonical (.ev 1 PollLevels.low) = true := by decide
theorem test_witness_RawWordsAreKeysWithinTheirWidth :
    2 ^ Format.qe.width ≤ 4 ∧ 3 < 2 ^ Format.qe.width ∧ Format.qe ≠ .ps ∧ 1023 < 2 ^ Format.ps.width := by decide
theorem test_witness_ByteCountSelectsTheReceiveOperation :
    (3 : Byte) = 3 ∧ (2 : Byte) ≠ 3 ∧ (4 : Byte) ≠ 3 := by decide
theorem test_witness_StepRunsTheDecodedRow :
    ((calm 16).withScript [evEdge true true, evRecv]).script = evEdge true true :: [evRecv] ∧
    keyOf ((calm 16).withScript [evEdge true true, evRecv]) (evEdge true true) = some (.qe 0b11) ∧
    ∀ w, evEdge true true ≠ .ps w := ⟨by decide, by decide, fun _ h => nomatch h⟩
theorem test_witness_NoStepWithoutAnEventOrNotification :
    (calm 16).script = [] ∧ ((calm 16).withScript [.rx]).rxN = none ∧ ((calm 16).withScript [.fr]).script = [.fr] := by decide
theorem test_witness_EveryKeyCanBePlacedAndRun : Key.canonical (.fr 0x020232) = true := by decide
theorem test_witness_DecoderStepsOfDifferentChannelsCommute : PollChan.e2 ≠ .e6 := by decide
theorem test_witness_EdgeStepCountsByItsTwoLevels :
    ((calm 16).withScript [evEdge true false]).script = evEdge true false :: [] := by decide
theorem test_witness_PollFollowsItsTable : (calm 16).lastA.get .e4 = false ∧ high4.lastA.get .e4 = true := by decide
theorem test_witness_PollStepComparesWithTheStoredLevel :
    ((calm 16).withScript [evPoll .e3 false true]).script = evPoll .e3 false true :: [] ∧
    false = (calm 16).lastA.get .e3 ∧ true ≠ (calm 16).lastA.get .e3 := by decide
theorem test_witness_PollOutsideTheChannelsIsRefused : (7 : BitVec 3) = 0 ∨ (7 : BitVec 3) = 1 ∨ (7 : BitVec 3) = 7 := by
  decide
theorem test_witness_WrapIsTheRepresentativeInRange :
    2 ≤ 2 ∧ InRange 2 (-2) ∧ (2 : Int) ^ 2 ∣ 2 - (-2) := by decide
theorem test_witness_CountersWrapAtTheirLimits_up :
    let s := (calm 16).withCnt ⟨32767, 0, 0, 0, 0, 32767⟩
    2 ≤ s.params.cntW ∧ s.cnt.get .e1 = 2 ^ (s.params.cntW - 1) - 1 ∧ s.cnt.get PollChan.e6.chan = 2 ^ (s.params.cntW - 1) - 1 ∧
    s.lastA.get .e6 = false := by decide
theorem test_witness_CountersWrapAtTheirLimits_down :
    let s := (high4.withCnt ⟨-32768, 0, 0, -32768, 0, 0⟩)
    2 ≤ s.params.cntW ∧ s.cnt.get .e1 = -2 ^ (s.params.cntW - 1) ∧ s.cnt.get PollChan.e4.chan = -2 ^ (s.params.cntW - 1) ∧
    s.lastA.get .e4 = true := by decide
theorem test_witness_PolledNetSum :
    2 ≤ (calm 2).params.cntW ∧ InRange (calm 2).params.cntW (((calm 2).withCnt ⟨0, -2, 0, 0, 0, 0⟩).cnt.get PollChan.e2.chan) := by
  decide
/-- T2.2, the third net-sum vector. -/
theorem test_pollSum_vector :
    pollSum false [(true, false), (true, true), (false, true), (false, false), (false, false), (true, false)] = 3 ∧
    lastObserved false [(true, false), (true, true), (false, true), (false, false), (false, false), (true, false)] = true := by
  decide
theorem test_witness_EdgeNetSum :
    2 ≤ (calm 2).params.cntW ∧ InRange (calm 2).params.cntW (((calm 2).withCnt ⟨1, 0, 0, 0, 0, 0⟩).cnt.get .e1) := by decide
/-- T2.1, the net-sum vectors. -/
theorem test_edgeSum_vector :
    edgeSum [(true, true), (false, false), (true, true)] = 3 ∧ edgeSum [(true, false), (false, true)] = -2 := by decide
theorem test_witness_VariantsCountWithOppositeSigns : true ≠ (calm 16).lastA.get .e2 := by decide
theorem test_witness_UnderSamplingReversesAStep : (calm 16).lastA.get .e2 = false := by decide
theorem test_witness_ReadOutIsASnapshot :
    (∀ e ∈ [evEdge true true, evRead .e2, evSend 2 2 50, evXfer .drop, evRecv, .fr, evResetSlave], DuringReadOut e) ∧
    ∀ o, admitted (calm 16).params.xferFaults o = true := by
  refine ⟨?_, fun o => by cases o <;> decide⟩
  simp only [List.forall_mem_cons]
  exact ⟨.firing _ _, .read _, .send _ _ _, .xfer _, .recv, .recvFrame, .slaveReset _, fun _ h => nomatch h⟩
/-- The second clause's hypothesis: a read-out with a held transport step and a firing in it runs to its end. -/
theorem test_witness_ReadOutIsASnapshot_runs :
    ∃ t, runEvents (evRead .e1 :: [evXfer .drop, evEdge true true] ++ [evRead PollChan.e2.chan]) counted = .next t ∧
      t.readPort = some (.e2, -3) := ⟨_, rfl, by decide⟩
theorem test_witness_CountersChangeOnlyByTheirOwnSteps_step :
    ∃ t, exec .qeInc11 (calm 16) = .next t ∧ t.cnt.get .e1 ≠ (calm 16).cnt.get .e1 := ⟨_, rfl, by decide⟩
theorem test_witness_CountersChangeOnlyByTheirOwnSteps_reset :
    ∃ t, exec (.resetMaster PollLevels.low) counted = .next t ∧ t.cnt.get .e5 ≠ counted.cnt.get .e5 := ⟨_, rfl, by decide⟩
theorem test_witness_StoredLevelsChangeOnlyByTheirOwnPolls :
    ∃ t, exec (.qpInc010 .e4) (calm 16) = .next t ∧ t.lastA.get .e4 ≠ (calm 16).lastA.get .e4 := ⟨_, rfl, by decide⟩
theorem test_witness_TransportOutcomesFollowTheirTable :
    sending.wire = txn 2 2 50 :: [] ∧ sending.rxN = none ∧ sending.params.xferFaults.drop = true ∧
    sending.params.xferFaults.prefix1 = true ∧ sending.params.xferFaults.prefix2 = true := by decide
theorem test_witness_TransportOutcomesFollowTheirTable_refused :
    let s : State := { sending with params := { params 16 with xferFaults := ⟨false, false, false⟩ } }
    s.wire = txn 2 2 50 :: [] ∧ s.rxN = none ∧ s.params.xferFaults.drop = false ∧ s.params.xferFaults.prefix1 = false ∧
    s.params.xferFaults.prefix2 = false := by decide
theorem test_witness_TransportIsHeldUnlessEnabled :
    (calm 16).wire = [] ∧ (sending.withRx [] (some 0)).rxN ≠ none ∧
    Instr.xfDrop ∈ [Instr.xfDeliver, .xfDrop, .xfPrefix1, .xfPrefix2] := by decide
theorem test_witness_OneNotificationPerDeliveredTransaction :
    ∃ t, exec .xfPrefix2 sending = .next t ∧ sending.wire = txn 2 2 50 :: [] ∧ sending.rxN = none :=
  ⟨_, rfl, by decide, by decide⟩
theorem test_witness_WireIsAFifo : ∃ t, exec (.frSend 2 2 50) sending = .next t := ⟨_, rfl⟩
theorem test_witness_ReceivedFrameIsApplied :
    (holding 3 2 64).rxN = some 3 ∧ (holding 3 2 64).rxbuf = [3, 2, 64] ∧ (3 : Byte) = motorId .m3 ∧
    ∀ k, (4 : Byte) ≠ motorId k := ⟨by decide, by decide, by decide, fun k => by cases k <;> decide⟩
theorem test_witness_FrameTableSelectsTheEffect :
    (holding 2 3 9).rxN = some 3 ∧ (holding 2 3 9).rxbuf = [2, 3, 9] ∧ (3 : Byte) ≠ 1 ∧ (3 : Byte) ≠ 2 ∧ (0 : Byte) ≠ 1 ∧
    (4 : Byte) ≠ 1 ∧ (4 : Byte) ≠ 2 ∧ (4 : Byte) ≠ 3 := by decide
theorem test_witness_ReceiveAgreesWithTheFrameTable :
    (holding 1 255 9).rxN = some 3 ∧ (holding 1 255 9).rxbuf = [1, 255, 9] := by decide
theorem test_witness_OtherByteCountsAreDrained :
    ((calm 16).withRx [1, 1, 200, 7] (some 4)).rxN = some 4 ∧ (4 : Byte) ≠ 3 ∧ (2 : Byte) ≠ 3 := by decide
theorem test_witness_ReceiveRowsWaitForTheirNotification :
    (calm 16).rxN ≠ some 0 ∧ (calm 16).rxN ≠ some 3 ∧ (holding 1 1 9).rxbuf ≠ [1, 1, 8] ∧
    ((calm 16).withRx [1, 1] (some 3)).rxbuf.length ≠ 3 := by decide
theorem test_witness_DirectionDecodeIsTotal : (0 : Byte) ≠ 1 ∧ (0 : Byte) ≠ 2 ∧ (3 : Byte) ≠ 1 ∧ (3 : Byte) ≠ 2 := by decide
theorem test_witness_ReceiveStepLeavesNothingBuffered :
    let s := (holding 2 2 50).withScript [evRecv]
    RxConsistent s ∧ s.rxN = some 3 ∧ s.script = evRecv :: [] := ⟨rfl, rfl, rfl⟩
theorem test_witness_ReceiveStepLiftsTheTransportHold :
    let s := sending.withRx [7] (some 1)
    RxConsistent s ∧ s.rxN = some 1 ∧ s.wire = txn 2 2 50 :: [] := ⟨rfl, rfl, rfl⟩
theorem test_witness_RoundTripActsAsTheDirectCommand : (calm 16).wire = [] ∧ (calm 16).rxN = none := by decide
theorem test_witness_RepeatedFramesAreIdempotent :
    (calm 16).wire = [] ∧ (calm 16).rxN = none ∧ ((2 : Byte) = 0 ∨ (2 : Byte) = 1 ∨ (2 : Byte) = 2) ∧
    (calm 16).params.xferFaults.drop = true := by decide
theorem test_witness_ProducerPassesOnlyValidFrames :
    ((5 : Int) ≤ 7 ∧ (7 : Int) ≤ 7) ∧ ((4 : Int) < 5) ∧ ((7 : Int) < 8) ∧ 'F' ≠ 'f' ∧ 'F' ≠ 'b' := by decide
theorem test_witness_ResetsSetTheResetValues :
    (calm 16).params.lastAInit = .sample ∧ ({ params 16 with lastAInit := .zero } : Params).lastAInit = .zero := by decide
theorem test_witness_UnsetActuatorFaultsOnObservation :
    (holding 3 1 4).rxN = some 3 ∧ (holding 3 1 4).rxbuf = [motorId .m3, 1, 4] ∧ (calm 16).act.get .m2 = none ∧
    ((calm 16).withAct ⟨none, some ⟨.bwd, 50⟩, none⟩).act.get .m2 = some ⟨.bwd, 50⟩ ∧ Motor.m2 ≠ .m3 := by decide
theorem test_witness_ResetStateIsAPowerUp : State.reset.params = Config.params ∧ State.reset.script = [] := ⟨rfl, rfl⟩

/-- A state in the middle of a run: one frame carried out, a shortened one in progress, one under way. -/
def midway : State :=
  { calm 16 with
    act := ⟨none, some ⟨.bwd, 50⟩, none⟩, rxbuf := [1, 1], rxN := some 2, wire := [txn 3 0 20]
    busLog := [txn 2 2 50, txn 1 1 255, txn 3 0 20], actLog := [⟨.m2, ⟨.bwd, 50⟩⟩], script := [evRecv] }

theorem test_witness_EveryStepKeepsTheInvariant : BlockInv midway ∧ ∃ t, step midway = .next t := by
  refine ⟨⟨by decide, fun k => by cases k <;> decide, rfl, by decide, ?_, by decide, ?_⟩, _, rfl⟩
  · exact ⟨[txn 2 2 50, txn 1 1 255], rfl⟩
  · intro m c h
    cases m
    · cases h
    · cases h; decide
    · cases h
theorem test_witness_EveryCommandWasSent : Traceable midway ∧ ∃ t, step midway = .next t := by
  refine ⟨⟨by decide, fun _ => ⟨txn 1 1 255, by decide, ⟨[255], rfl⟩⟩, ?_⟩, _, rfl⟩
  intro e he
  cases List.mem_singleton.mp he
  exact ⟨txn 2 2 50, by decide, by decide⟩
theorem test_witness_NoTransactionIsDuplicated : InOrder midway ∧ ∃ t, step midway = .next t :=
  ⟨⟨[txn 2 2 50, txn 1 1 255], rfl, [txn 2 2 50], txn 1 1 255, rfl, ⟨[255], rfl⟩, by decide⟩, _, rfl⟩
theorem test_witness_NoTransactionIsDuplicated_idle : InOrder (calm 16) :=
  ⟨[], rfl, List.Sublist.slnil⟩
/-- A transaction delivered twice after another was lost is not in order. -/
theorem test_duplicate_is_not_inOrder :
    ¬ InOrder { midway with rxbuf := [], rxN := none, wire := [], actLog := [⟨.m2, ⟨.bwd, 50⟩⟩, ⟨.m2, ⟨.bwd, 50⟩⟩] } := by
  rintro ⟨passed, h, hl⟩
  cases (List.append_nil passed).symm.trans h.symm
  revert hl
  decide
theorem test_witness_CommandsAreBoundedByTransactions : CountsBounded midway ∧ ∃ t, step midway = .next t :=
  ⟨by unfold CountsBounded; decide, _, rfl⟩
theorem test_witness_RefusalsAreExactlyTheSpecs :
    Instr.wellFormed (.qpNoSuchChannel 0 true false) = true ∧ Instr.wellFormed (.qpNoSuchChannel 1 true false) = true ∧
    Instr.wellFormed .rdReserved0 = true ∧ Instr.wellFormed .xfDrop = true := by decide
theorem test_witness_LogsAreAppendOnly : ∃ t, step midway = .next t := ⟨_, rfl⟩
theorem test_witness_ConfigurationIsStatic : ∃ t, step midway = .next t := ⟨_, rfl⟩
theorem test_witness_AgentsLeaveTheOtherNodeAlone_master :
    ∃ t, exec .qeInc11 midway = .next t ∧ Instr.agent .qeInc11 = .edgeSource := ⟨_, rfl, rfl⟩
theorem test_witness_AgentsLeaveTheOtherNodeAlone_slave :
    ∃ t, exec (.frDrain 2) midway = .next t ∧ Instr.agent (.frDrain 2) = .slaveReceive := ⟨_, rfl, rfl⟩
theorem test_witness_NodesDoNotInfluenceEachOther_slave :
    ∃ t, exec (.frDrain 2) midway = .next t ∧ SameSlave midway (midway.withCnt ⟨1, 2, 3, 4, 5, 6⟩) :=
  ⟨_, rfl, rfl, rfl, rfl, rfl⟩
theorem test_witness_NodesDoNotInfluenceEachOther_master :
    ∃ t, exec .qeInc11 midway = .next t ∧ SameDecoder midway (midway.withRx [] none) ∧
      (midway.withRx [] none).params = midway.params := ⟨_, rfl, ⟨rfl, rfl⟩, rfl⟩
theorem test_witness_ActuatorsChangeOnlyByFramesOrReset_frame :
    ∃ t, exec .frRecv (holding 2 2 50) = .next t ∧ t.act ≠ (holding 2 2 50).act := ⟨_, rfl, by decide⟩
theorem test_witness_ActuatorsChangeOnlyByFramesOrReset_reset :
    ∃ t, exec .resetSlave midway = .next t ∧ t.act ≠ midway.act := ⟨_, rfl, by decide⟩
theorem test_witness_SilentOutcomesLeaveNoTrace :
    (silentClass (.frDrain 2) midway = some .framingError ∧ ∃ t, exec (.frDrain 2) midway = .next t) ∧
    (silentClass .frRecv (holding 4 1 9) = some .rangeError ∧ ∃ t, exec .frRecv (holding 4 1 9) = .next t) ∧
    (silentClass .xfDrop sending = some .transportError ∧ ∃ t, exec .xfDrop sending = .next t) :=
  ⟨⟨by decide, _, rfl⟩, ⟨by decide, _, rfl⟩, ⟨by decide, _, rfl⟩⟩

end Sys2Proof.Tests
end

section
/-! PROOF. `wrap` chooses one integer of each class modulo 2^w (R8, R84). -/

namespace Sys2Proof.Machine

/-- `wrap` gives two integers the same counter value exactly where they are congruent modulo 2^w. -/
theorem wrap_eq_wrap_iff {w : Nat} {u v : Int} : wrap w u = wrap w v ↔ (2 : Int) ^ w ∣ u - v := by
  have h : wrap w u = wrap w v ↔ ((2 ^ w : Nat) : Int) ∣ u - v :=
    Int.bmod_eq_bmod_iff_bmod_sub_eq_zero.trans Int.dvd_iff_bmod_eq_zero.symm
  rwa [Nat.cast_pow, Nat.cast_ofNat] at h

/-- `wrap` of a counter value is that value again. -/
@[simp] theorem wrap_wrap (w : Nat) (v : Int) : wrap w (wrap w v) = wrap w v := Int.bmod_bmod

/-- Settles O17: two congruent integers have the same `wrap`, and `wrap` leaves an integer of its range as it is. -/
theorem wrapIsTheRepresentativeInRange : Obligations.WrapIsTheRepresentativeInRange := by
  intro w v u hw
  have hw1 : 1 ≤ w := Nat.le_of_succ_le hw
  refine ⟨wrap_inRange hw1 v, wrap_eq_wrap_iff.mp (wrap_wrap w v).symm, ?_⟩
  rintro ⟨hl, hu⟩ hdvd
  calc u = wrap w u := (wrap_of_inRange hw1 hl hu).symm
    _ = wrap w v := (wrap_eq_wrap_iff.mpr hdvd).symm

end Sys2Proof.Machine
end

section
/-! PROOF. The parameters of R7 and the mode of each channel never change (R24, R26). -/

namespace Sys2Proof.Machine

/-- `QD_POLL` leaves the slave, the bus and the model alone, whether or not it observes a change (R81). -/
theorem qdPoll_leaves (k : PollChan) (a b : Level) (s : State) :
    SameSlave s (qdPoll k a b s) ∧ SameBus s (qdPoll k a b s) ∧ SameModel s (qdPoll k a b s) := by
  by_cases h : a = s.lastA.get k
  · rw [qdPoll_hold h]; exact ⟨.refl s, .refl s, .refl s⟩
  · have hp := qdPoll_polled (b := b) h
    exact ⟨hp.slave, hp.bus, hp.model⟩

/-- Whatever a row does, the parameters stay. -/
theorem Effect.params_eq {wf : Prop} {s t : State} (h : Effect wf s t) : t.params = s.params := by
  cases h with
  | edge a b => exact (qdEdge_fired a b s).model.params
  | poll k a b => exact (qdPoll_leaves k a b s).2.2.params
  | @xfer o x rest => exact (deliver_leaves o x (s.withWire rest)).2.params
  | held | read | send | ignored | commanded | drained | masterReset | slaveReset => rfl

/-- A step leaves the parameters alone: it runs a row on the state with another script, or changes the script only. -/
theorem step_params {s t : State} (h : step s = .next t) : t.params = s.params := by
  obtain ⟨es, ⟨key, hk⟩ | hn⟩ := step_cases s
  · exact (exec_effect (hk.symm.trans h)).params_eq
  · cases hn.symm.trans h; rfl

/-- `CH_MODE` (R24): a channel is polled exactly where it is one of the polled channels. -/
theorem chMode_eq_poll_iff (k : Chan) : Config.chMode k = .poll ↔ ∃ c : PollChan, c.chan = k := by
  constructor
  · intro h
    cases k
    case e1 => cases h
    case e2 => exact ⟨.e2, rfl⟩
    case e3 => exact ⟨.e3, rfl⟩
    case e4 => exact ⟨.e4, rfl⟩
    case e5 => exact ⟨.e5, rfl⟩
    case e6 => exact ⟨.e6, rfl⟩
  · rintro ⟨c, rfl⟩
    cases c <;> rfl

/-- Settles O53: no effect of a row touches the parameters, and `CH_MODE` names the range of `PollChan.chan`. -/
theorem configurationIsStatic : Obligations.ConfigurationIsStatic :=
  ⟨fun _ _ => step_params, chMode_eq_poll_iff⟩

end Sys2Proof.Machine
end

section
/-! PROOF. Which operations each agent runs, and what they leave alone of the other node (R3, R11, R138). -/

namespace Sys2Proof.Machine

/-- What a row of each agent can do from `s`: the operation it runs and the state it answers (R11). -/
inductive AgentStep (s : State) : Agent → State → Prop where
  | edge (a b : Level) : AgentStep s .edgeSource (qdEdge a b s)
  | poll (k : PollChan) (a b : Level) : AgentStep s .mainContext (qdPoll k a b s)
  | read (k : Chan) : AgentStep s .mainContext (qdRead k s)
  | send (m d sp : Byte) : AgentStep s .mainContext (busTx (frameTxn m d sp s) s)
  | xfer (o : XferOutcome) {t : State} (h : busXfer o s = .next t) : AgentStep s .transport t
  | recv : AgentStep s .slaveReceive (frRecv s)
  | drain (n : Byte) : AgentStep s .slaveReceive (frDrain n s)
  | command (k : Motor) (mode : Mode) (d sp : Byte) :
      AgentStep s .slaveReceive (recvRow (motorId k) d sp (actCmd k mode sp) s)
  | ignore (m d sp : Byte) : AgentStep s .slaveReceive (recvRow m d sp id s)
  | masterReset (lines : PollLevels) : AgentStep s .masterReset (resetMaster lines s)
  | slaveReset : AgentStep s .slaveReset (resetSlave s)

/-- If `exec` answers a next state, it is one that the row's agent can reach. -/
theorem exec_agentStep {i : Instr} {s t : State} (h : exec i s = .next t) : AgentStep s i.agent t := by
  cases i
  case qeInc00 | qeInc11 | qeDec10 | qeDec01 => cases h; exact .edge _ _
  case qpHold0 | qpHold1 | qpInc010 | qpInc101 | qpDec011 | qpDec100 => cases h; exact .poll _ _ _
  case qdReadE1 | qdReadE2 | qdReadE3 | qdReadE4 | qdReadE5 | qdReadE6 => cases h; exact .read _
  case qpNoSuchChannel | rdReserved0 | rdReserved7 => cases h
  case frSend => cases h; exact .send _ _ _
  case xfDeliver | xfDrop | xfPrefix1 | xfPrefix2 => exact .xfer _ h
  case frRecv => cases h; exact .recv
  case frDrain => cases h; exact .drain _
  case frxFwdM1 | frxBwdM1 | frxStopM1 => cases h; exact .command .m1 _ _ _
  case frxFwdM2 | frxBwdM2 | frxStopM2 => cases h; exact .command .m2 _ _ _
  case frxFwdM3 | frxBwdM3 | frxStopM3 => cases h; exact .command .m3 _ _ _
  case frxIgnore => cases h; exact .ignore _ _ _
  case resetMaster => cases h; exact .masterReset _
  case resetSlave => cases h; exact .slaveReset

section Leaves
variable {s t : State}

/-- A firing leaves the slave and the bus alone (R80). -/
theorem AgentStep.edgeSource_leaves (h : AgentStep s .edgeSource t) : SameSlave s t ∧ SameBus s t := by
  cases h with
  | edge a b => exact ⟨(qdEdge_fired a b s).slave, (qdEdge_fired a b s).bus⟩

/-- Polls, reads and sends leave the slave alone (R81, R83, R101). -/
theorem AgentStep.mainContext_sameSlave (h : AgentStep s .mainContext t) : SameSlave s t := by
  cases h with
  | poll k a b => exact (qdPoll_leaves k a b s).1
  | read k => exact (qdRead_readOut k s).slave
  | send m d sp => exact (busTx_sent m d sp s).slave

/-- The master's reset leaves the slave and the bus alone (R150). -/
theorem AgentStep.masterReset_leaves (h : AgentStep s .masterReset t) : SameSlave s t ∧ SameBus s t := by
  cases h; exact ⟨⟨rfl, rfl, rfl, rfl⟩, ⟨rfl, rfl⟩⟩

/-- The transport leaves the decoder alone, held or not (R104). -/
theorem AgentStep.transport_sameDecoder (h : AgentStep s .transport t) : SameDecoder s t := by
  cases h with
  | xfer o h =>
    obtain rfl | ⟨x, rest, -, -, -, rfl⟩ := busXfer_next h
    · exact .refl t
    · obtain ⟨hcnt, hlastA⟩ := (deliver_leaves o x (s.withWire rest)).1
      exact ⟨hcnt, hlastA⟩

/-- The slave's receive steps leave the decoder and the bus alone: it never transmits (R113). -/
theorem AgentStep.slaveReceive_leaves (h : AgentStep s .slaveReceive t) : SameDecoder s t ∧ SameBus s t := by
  cases h with
  | recv => exact (frRecv_leaves s).imp_right And.left
  | drain n => exact (frDrain_leaves n s).imp_right And.left
  | command => exact (recvRow_leaves ⟨rfl, rfl⟩ ⟨rfl, rfl⟩ ⟨rfl, rfl, rfl⟩).imp_right And.left
  | ignore => exact (recvRow_leaves ⟨rfl, rfl⟩ ⟨rfl, rfl⟩ ⟨rfl, rfl, rfl⟩).imp_right And.left

/-- The slave's reset leaves the decoder and the bus alone (R150). -/
theorem AgentStep.slaveReset_leaves (h : AgentStep s .slaveReset t) : SameDecoder s t ∧ SameBus s t := by
  cases h; exact ⟨⟨rfl, rfl⟩, ⟨rfl, rfl⟩⟩

end Leaves

/-- Settles O54: each agent runs its own operations only, and these leave the other node alone. -/
theorem agentsLeaveTheOtherNodeAlone : Obligations.AgentsLeaveTheOtherNodeAlone := by
  intro i s t h
  have hstep := exec_agentStep h
  generalize i.agent = agent at hstep
  refine ⟨?_, ?_, ?_⟩
  · rintro (rfl | rfl | rfl)
    · exact hstep.edgeSource_leaves.1
    · exact hstep.mainContext_sameSlave
    · exact hstep.masterReset_leaves.1
  · rintro (rfl | rfl | rfl)
    · exact hstep.transport_sameDecoder
    · exact hstep.slaveReceive_leaves.1
    · exact hstep.slaveReset_leaves.1
  · rintro (rfl | rfl | rfl | rfl)
    · exact hstep.edgeSource_leaves.2
    · exact hstep.masterReset_leaves.2
    · exact hstep.slaveReceive_leaves.2
    · exact hstep.slaveReset_leaves.2

end Sys2Proof.Machine
end

section
/-! PROOF. What every step does and what it keeps, derived once from what every row does (R10). -/

namespace Sys2Proof.Machine

/-- A property that no row and no change of the script breaks is kept by every step. -/
theorem step_keeps {P : State → Prop} (hscript : ∀ s es, P s → P (s.withScript es))
    (hexec : ∀ i s t, exec i s = .next t → P s → P t) {s t : State} (hP : P s) (h : step s = .next t) : P t := by
  obtain ⟨es, ⟨key, hk⟩ | hn⟩ := step_cases s
  · exact hexec _ _ _ (hk.symm.trans h) (hscript s es hP)
  · cases hn.symm.trans h
    exact hscript s es hP

/-- Settles O58: a step is a row's answer or the next state, and no row answers a fault. -/
theorem noStepFaults : Obligations.NoStepFaults := by
  intro s r h
  obtain ⟨es, ⟨key, hk⟩ | hn⟩ := step_cases s
  · exact exec_ne_fault _ _ r (hk.symm.trans h)
  · cases hn.symm.trans h

end Sys2Proof.Machine
end

section
/-! PROOF. What writes the decoder's registers: firings, polls and the master's reset (R20, R21, R25). -/

namespace Sys2Proof.Machine

/-- What a row does to the decoder: a firing, a poll of its own channel, the master's reset, or nothing. -/
theorem exec_decoder_cases {i : Instr} {s t : State} (h : exec i s = .next t) :
    (i.isEdge = true ∧ ∃ a b, t = qdEdge a b s) ∨ (∃ k a b, i.polls = some k ∧ t = qdPoll k a b s) ∨
    (i.isResetMaster = true ∧ ∃ lines, t = resetMaster lines s) ∨ SameDecoder s t := by
  have other : i.agent = .transport ∨ i.agent = .slaveReceive ∨ i.agent = .slaveReset → SameDecoder s t :=
    (agentsLeaveTheOtherNodeAlone i s t h).2.1
  cases i
  case qeInc00 | qeInc11 | qeDec10 | qeDec01 => cases h; exact .inl ⟨rfl, _, _, rfl⟩
  case qpHold0 | qpHold1 | qpInc010 | qpInc101 | qpDec011 | qpDec100 =>
    cases h; exact .inr (.inl ⟨_, _, _, rfl, rfl⟩)
  case qdReadE1 | qdReadE2 | qdReadE3 | qdReadE4 | qdReadE5 | qdReadE6 =>
    cases h; exact .inr (.inr (.inr (qdRead_readOut _ s).decoder))
  case qpNoSuchChannel | rdReserved0 | rdReserved7 => cases h
  case frSend m d sp => cases h; exact .inr (.inr (.inr (busTx_sent m d sp s).decoder))
  case resetMaster => cases h; exact .inr (.inr (.inl ⟨rfl, _, rfl⟩))
  case xfDeliver | xfDrop | xfPrefix1 | xfPrefix2 => exact .inr (.inr (.inr (other (.inl rfl))))
  case frRecv | frDrain | frxFwdM1 | frxBwdM1 | frxStopM1 | frxFwdM2 | frxBwdM2 | frxStopM2 | frxFwdM3 | frxBwdM3 |
      frxStopM3 | frxIgnore => exact .inr (.inr (.inr (other (.inr (.inl rfl)))))
  case resetSlave => exact .inr (.inr (.inr (other (.inr (.inr rfl)))))

/-- A counter that a firing changes is `cnt[1]`, by one step up or down (R80). -/
theorem qdEdge_changes_cnt {a b : Level} {s : State} {k : Chan} (h : (qdEdge a b s).cnt.get k ≠ s.cnt.get k) :
    k = .e1 ∧ ((qdEdge a b s).cnt.get k = wrap s.params.cntW (s.cnt.get k + 1) ∨
      (qdEdge a b s).cnt.get k = wrap s.params.cntW (s.cnt.get k - 1)) := by
  have hf := qdEdge_fired a b s
  have hk : k = .e1 := by_contra fun hne => h (hf.decoder.others k hne)
  subst hk
  refine ⟨rfl, ?_⟩
  rw [hf.counted]
  split
  · exact .inl rfl
  · exact .inr rfl

/-- A poll that changes anything has observed a change of A (R81). -/
theorem qdPoll_observes_of_ne {c : PollChan} {a b : Level} {s : State} (h : qdPoll c a b s ≠ s) :
    Polled c (if b = a then -1 else 1) a s (qdPoll c a b s) :=
  qdPoll_polled fun ha => h (qdPoll_hold ha)

/-- A counter that a poll changes is its own channel's, by one step up or down (R81). -/
theorem qdPoll_changes_cnt {c : PollChan} {a b : Level} {s : State} {k : Chan}
    (h : (qdPoll c a b s).cnt.get k ≠ s.cnt.get k) :
    k = c.chan ∧ ((qdPoll c a b s).cnt.get k = wrap s.params.cntW (s.cnt.get k + 1) ∨
      (qdPoll c a b s).cnt.get k = wrap s.params.cntW (s.cnt.get k - 1)) := by
  have hp := qdPoll_observes_of_ne fun he => h (by rw [he])
  have hk : k = c.chan := by_contra fun hne => h (hp.decoder.counters k hne)
  subst hk
  refine ⟨rfl, ?_⟩
  rw [hp.counted]
  split
  · exact .inr rfl
  · exact .inl rfl

/-- Settles O26: of all rows only firings, polls and the master's reset touch a counter. -/
theorem countersChangeOnlyByTheirOwnSteps : Obligations.CountersChangeOnlyByTheirOwnSteps := by
  intro i s t k h hne
  obtain ⟨hi, a, b, rfl⟩ | ⟨c, a, b, hc, rfl⟩ | ⟨hi, lines, rfl⟩ | hd := exec_decoder_cases h
  · obtain ⟨hk, hv⟩ := qdEdge_changes_cnt hne
    exact .inr ⟨.inl ⟨hi, hk⟩, hv⟩
  · obtain ⟨hk, hv⟩ := qdPoll_changes_cnt hne
    exact .inr ⟨.inr ⟨c, hc, hk⟩, hv⟩
  · exact .inl ⟨hi, Counters.get_zero k⟩
  · exact absurd (by rw [hd.cnt]) hne

/-- Settles O27: of all rows only polls and the master's reset touch a stored level. -/
theorem storedLevelsChangeOnlyByTheirOwnPolls : Obligations.StoredLevelsChangeOnlyByTheirOwnPolls := by
  intro i s t k h hne
  obtain ⟨-, a, b, rfl⟩ | ⟨c, a, b, hc, rfl⟩ | ⟨hi, -⟩ | hd := exec_decoder_cases h
  · exact absurd (by rw [(qdEdge_fired a b s).decoder.lastA]) hne
  · have hp := qdPoll_observes_of_ne fun he => hne (by rw [he])
    have hk : k = c := by_contra fun hkc => hne (hp.decoder.levels k hkc)
    exact .inr (hk ▸ hc)
  · exact .inl hi
  · exact absurd (by rw [hd.lastA]) hne

end Sys2Proof.Machine
end

section
/-! PROOF. What writes the actuator registers and what an observation of them answers (R27, R107, R110, R132). -/

namespace Sys2Proof.Machine

/-- An observation of a register that is `UNSET` (R132). -/
theorem readAct_of_none {m : Motor} {s : State} (h : s.act.get m = none) : readAct m s = .fault .unsetActuator := by
  unfold readAct; rw [h]

/-- An observation of a register that has been written (R27). -/
theorem readAct_of_some {m : Motor} {c : ActCommand} {s : State} (h : s.act.get m = some c) :
    readAct m s = .next c := by
  unfold readAct; rw [h]

/-- An observation depends on its own register only. -/
theorem readAct_congr {m : Motor} {s t : State} (h : t.act.get m = s.act.get m) : readAct m t = readAct m s := by
  unfold readAct; rw [h]

/-- `FR_RECV` of a frame for a known actuator commands it (R107). -/
theorem frRecv_commanded {s : State} {k : Motor} {d sp : Byte} (hn : s.rxN = some 3)
    (hb : s.rxbuf = [motorId k, d, sp]) : Commanded k (dirdecode d) sp s (frRecv s) := by
  rw [frRecv_enabled hn hb, applyFrame_known]
  exact actCmd_commanded k _ sp s

/-- Settles O45: what an observation answers is a matter of its register alone. -/
theorem unsetActuatorFaultsOnObservation : Obligations.UnsetActuatorFaultsOnObservation := by
  intro s m
  refine ⟨readAct_of_none, fun _ => readAct_of_some,
    ⟨resetSlave s, rfl, readAct_of_none (ActRegs.get_unset m)⟩, fun d sp hn hb => ?_⟩
  have hc := frRecv_commanded hn hb
  exact ⟨frRecv s, rfl, readAct_of_some hc.written, fun j hj => readAct_congr (hc.others j hj)⟩

/-- What `FR_RECV` does to the actuators: nothing, or one command for a 3-byte notification (R107). -/
theorem frRecv_act_cases (s : State) :
    ((frRecv s).act = s.act ∧ (frRecv s).actLog = s.actLog) ∨
    (s.rxN = some 3 ∧ ∃ k mode sp, Commanded k mode sp s (frRecv s)) := by
  by_cases h : s.rxN = some 3 ∧ s.rxbuf.length = 3
  · obtain ⟨hn, hl⟩ := h
    match hb : s.rxbuf, hl with
    | [m, d, sp], _ =>
      cases hm : motorOfId m with
      | none => rw [frRecv_enabled hn hb, applyFrame_unknown hm]; exact .inl ⟨rfl, rfl⟩
      | some k =>
        rw [motorOfId_eq_some.mp hm] at hb
        exact .inr ⟨hn, k, _, sp, frRecv_commanded hn hb⟩
  · rw [frRecv_held h]; exact .inl ⟨rfl, rfl⟩

/-- A transport step leaves the actuators and the log of their commands alone (R104). -/
theorem busXfer_leaves_act {o : XferOutcome} {s t : State} (h : busXfer o s = .next t) :
    t.act = s.act ∧ t.actLog = s.actLog := by
  obtain rfl | ⟨x, rest, -, -, -, rfl⟩ := busXfer_next h
  · exact ⟨rfl, rfl⟩
  · cases o <;> exact ⟨rfl, rfl⟩

/-- What a row does to the actuators: nothing, one command for a 3-byte notification, or the slave's reset. -/
theorem AgentStep.act_cases {s t : State} {agent : Agent} (h : AgentStep s agent t) :
    (t.act = s.act ∧ t.actLog = s.actLog) ∨
    (agent = .slaveReceive ∧ s.rxN = some 3 ∧ ∃ k mode sp, Commanded k mode sp s t) ∨
    (agent = .slaveReset ∧ t.act = ActRegs.unset ∧ t.actLog = s.actLog) := by
  have same : SameSlave s t → t.act = s.act ∧ t.actLog = s.actLog := fun h => ⟨h.act, h.actLog⟩
  cases h with
  | edge a b => exact .inl (same (qdEdge_fired a b s).slave)
  | poll k a b => exact .inl (same (qdPoll_leaves k a b s).1)
  | read k => exact .inl (same (qdRead_readOut k s).slave)
  | send m d sp => exact .inl (same (busTx_sent m d sp s).slave)
  | xfer o h => exact .inl (busXfer_leaves_act h)
  | recv => exact (frRecv_act_cases s).imp_right fun hc => .inl ⟨rfl, hc⟩
  | drain n =>
    by_cases hd : s.rxN = some n ∧ n ≠ 3
    · rw [frDrain_enabled hd.1 hd.2]; exact .inl ⟨rfl, rfl⟩
    · rw [frDrain_held hd]; exact .inl ⟨rfl, rfl⟩
  | command k mode d sp =>
    by_cases hr : s.rxN = some 3 ∧ s.rxbuf = [motorId k, d, sp]
    · rw [recvRow_enabled hr.1 hr.2]
      exact .inr (.inl ⟨rfl, hr.1, k, mode, sp, actCmd_commanded k mode sp s⟩)
    · rw [recvRow_held hr]; exact .inl ⟨rfl, rfl⟩
  | ignore m d sp =>
    by_cases hr : s.rxN = some 3 ∧ s.rxbuf = [m, d, sp]
    · rw [recvRow_enabled hr.1 hr.2]; exact .inl ⟨rfl, rfl⟩
    · rw [recvRow_held hr]; exact .inl ⟨rfl, rfl⟩
  | masterReset => exact .inl ⟨rfl, rfl⟩
  | slaveReset => exact .inr (.inr ⟨rfl, rfl, rfl⟩)

/-- The slave's reset is one row. -/
theorem eq_resetSlave_of_agent {i : Instr} (h : i.agent = .slaveReset) : i = .resetSlave := by
  cases i
  case resetSlave => rfl
  all_goals cases h

/-- Settles O56: of all rows only a receive step with a command and the slave's reset touch a register. -/
theorem actuatorsChangeOnlyByFramesOrReset : Obligations.ActuatorsChangeOnlyByFramesOrReset := by
  intro i s t h hne
  obtain ⟨hact, -⟩ | ⟨hi, hn, k, mode, sp, hc⟩ | ⟨hi, hact, -⟩ := (exec_agentStep h).act_cases
  · exact absurd hact hne
  · refine .inl ⟨hi, hn, hc.consumed.2, ?_⟩
    rw [hc.logged, List.length_append, List.length_singleton]
  · exact .inr ⟨eq_resetSlave_of_agent hi, fun m => by rw [hact, ActRegs.get_unset]⟩

end Sys2Proof.Machine
end

section
/-! PROOF. What a row does to the bus and to the receive state (R54, R104, R105), and the two logs (R30). -/

namespace Sys2Proof.Machine

/-- What a row does to the bus: nothing, one transaction opened to the slave, or the oldest taken from `wire` (R54). -/
theorem Effect.bus_cases {wf : Prop} {s t : State} (h : Effect wf s t) :
    (t.wire = s.wire ∧ t.busLog = s.busLog) ∨
    (∃ x, t.wire = s.wire ++ [x] ∧ t.busLog = s.busLog ++ [x] ∧ x.addr = s.params.slaveAddr) ∨
    (∃ x, s.wire = x :: t.wire ∧ t.busLog = s.busLog) := by
  cases h with
  | edge a b => exact .inl ⟨(qdEdge_fired a b s).bus.wire, (qdEdge_fired a b s).bus.busLog⟩
  | poll k a b => exact .inl ⟨(qdPoll_leaves k a b s).2.1.wire, (qdPoll_leaves k a b s).2.1.busLog⟩
  | send m d sp => exact .inr (.inl ⟨frameTxn m d sp s, rfl, rfl, rfl⟩)
  | xfer o hw => cases o <;> exact .inr (.inr ⟨_, hw, rfl⟩)
  | held | read | ignored | commanded | drained | masterReset | slaveReset => exact .inl ⟨rfl, rfl⟩

/-- What a row does to the receive state: nothing, the notification consumed or lost in a reset, or a new one with the
first bytes of the transaction that left `wire`, its count the bytes available (R104, R105). -/
theorem Effect.rx_cases {wf : Prop} {s t : State} (h : Effect wf s t) :
    (t.rxbuf = s.rxbuf ∧ t.rxN = s.rxN) ∨ (t.rxbuf = [] ∧ t.rxN = none) ∨
    (∃ x n, s.wire = x :: t.wire ∧ s.rxN = none ∧ t.rxN = some n ∧ t.rxbuf.length = n.toNat ∧
      t.rxbuf <+: [x.b0, x.b1, x.b2]) := by
  cases h with
  | edge a b => exact .inl ⟨(qdEdge_fired a b s).slave.rxbuf, (qdEdge_fired a b s).slave.rxN⟩
  | poll k a b => exact .inl ⟨(qdPoll_leaves k a b s).1.rxbuf, (qdPoll_leaves k a b s).1.rxN⟩
  | @xfer o x _ hw hn =>
    cases o with
    | deliver => exact .inr (.inr ⟨x, 3, hw, hn, rfl, rfl, List.prefix_rfl⟩)
    | drop => exact .inl ⟨rfl, rfl⟩
    | prefix1 => exact .inr (.inr ⟨x, 1, hw, hn, rfl, rfl, [x.b1, x.b2], rfl⟩)
    | prefix2 => exact .inr (.inr ⟨x, 2, hw, hn, rfl, rfl, [x.b2], rfl⟩)
  | ignored | commanded | drained | slaveReset => exact .inr (.inl ⟨rfl, rfl⟩)
  | held | read | send | masterReset => exact .inl ⟨rfl, rfl⟩

/-- A row only appends to `bus_log` (R30). -/
theorem exec_busLog_prefix {i : Instr} {s t : State} (h : exec i s = .next t) : s.busLog <+: t.busLog := by
  obtain ⟨-, hlog⟩ | ⟨x, -, hlog, -⟩ | ⟨x, -, hlog⟩ := (exec_effect h).bus_cases
  · rw [hlog]
  · rw [hlog]; exact List.prefix_append _ _
  · rw [hlog]

/-- A row only appends to `act_log` (R30). -/
theorem exec_actLog_prefix {i : Instr} {s t : State} (h : exec i s = .next t) : s.actLog <+: t.actLog := by
  obtain ⟨-, hlog⟩ | ⟨-, -, k, mode, sp, hc⟩ | ⟨-, -, hlog⟩ := (exec_agentStep h).act_cases
  · rw [hlog]
  · rw [hc.logged]; exact List.prefix_append _ _
  · rw [hlog]

/-- Settles O52: being an extension of both earlier logs is kept by every row, and the script is no part of it. -/
theorem logsAreAppendOnly : Obligations.LogsAreAppendOnly := fun s _ =>
  step_keeps (P := fun u => s.busLog <+: u.busLog ∧ s.actLog <+: u.actLog) (fun _ _ hu => hu)
    (fun _ _ _ he hu => ⟨hu.1.trans (exec_busLog_prefix he), hu.2.trans (exec_actLog_prefix he)⟩)
    ⟨List.prefix_rfl, List.prefix_rfl⟩

end Sys2Proof.Machine
end

section
/-! PROOF. `BlockInv`: each of its parts is kept by what a row does to the registers it speaks of; it and the other
three invariants hold at reset. -/

namespace Sys2Proof.Machine

/-- The value of a counter at reset is in range (R150). -/
theorem inRange_zero (w : Nat) : InRange w 0 :=
  ⟨neg_nonpos.mpr (by positivity), by positivity⟩

/-- Where the parameters are admitted, `wrap` lands in the range of a counter (R7, R8). -/
theorem inRange_wrap {p : Params} (hp : p.Admitted) (v : Int) : InRange p.cntW (wrap p.cntW v) :=
  wrap_inRange (Nat.le_of_succ_le hp.1) v

/-- A command just logged is its actuator's last. -/
@[simp] theorem lastCommand_append_self (m : Motor) (c : ActCommand) (log : List ActEntry) :
    lastCommand m (log ++ [⟨m, c⟩]) = some c := by
  simp [lastCommand]

/-- A command just logged is the last of no other actuator. -/
theorem lastCommand_append_other {j m : Motor} (h : j ≠ m) (c : ActCommand) (log : List ActEntry) :
    lastCommand j (log ++ [⟨m, c⟩]) = lastCommand j log := by
  simp [lastCommand, h.symm]

section Exec
variable {i : Instr} {s t : State} (hI : BlockInv s) (h : exec i s = .next t)
include hI h

/-- A counter that a row changes is a wrapped value or 0 (R20). -/
theorem exec_keeps_cntRange (k : Chan) : InRange s.params.cntW (t.cnt.get k) := by
  by_cases hk : t.cnt.get k = s.cnt.get k
  · rw [hk]; exact hI.cntRange k
  · obtain ⟨-, hz⟩ | ⟨-, hup | hdown⟩ := countersChangeOnlyByTheirOwnSteps i s t k h hk
    · rw [hz]; exact inRange_zero _
    · rw [hup]; exact inRange_wrap hI.params _
    · rw [hdown]; exact inRange_wrap hI.params _

/-- A notification begins with its byte count and ends with no byte left, and a frame fits in `rxbuf` (R28, R105). -/
theorem exec_keeps_rx : RxConsistent t ∧ t.rxbuf.length ≤ s.params.busN := by
  unfold RxConsistent
  obtain ⟨hbuf, hn⟩ | ⟨hbuf, hn⟩ | ⟨x, n, -, -, hn, hlen, hframe⟩ := (exec_effect h).rx_cases
  · rw [hbuf, hn]
    exact ⟨hI.rx, hI.rxCap⟩
  · rw [hbuf, hn]
    exact ⟨rfl, Nat.zero_le _⟩
  · rw [hn]
    obtain ⟨-, hbusN, -⟩ := hI.params
    exact ⟨hlen, hframe.length_le.trans hbusN⟩

/-- `wire` stays the end of `bus_log`, in which every transaction is the slave's (R42, R54). -/
theorem exec_keeps_bus : t.wire <:+ t.busLog ∧ ∀ x ∈ t.busLog, x.addr = s.params.slaveAddr := by
  obtain ⟨hwire, hlog⟩ | ⟨x, hwire, hlog, haddr⟩ | ⟨x, hwire, hlog⟩ := (exec_effect h).bus_cases
  · rw [hwire, hlog]
    exact ⟨hI.wireSent, hI.addressed⟩
  · rw [hwire, hlog]
    refine ⟨(List.suffix_append_inj_of_length_eq rfl).mpr ⟨hI.wireSent, rfl⟩, fun y hy => ?_⟩
    obtain hy | hy := List.mem_append.mp hy
    · exact hI.addressed y hy
    · rw [List.mem_singleton.mp hy, haddr]
  · rw [hlog]
    exact ⟨(List.suffix_cons x t.wire).trans (hwire ▸ hI.wireSent), hI.addressed⟩

/-- A register is written together with its entry in `act_log` (R27, R110). -/
theorem exec_keeps_actLast (m : Motor) (c : ActCommand) (hm : t.act.get m = some c) :
    lastCommand m t.actLog = some c := by
  obtain ⟨hact, hlog⟩ | ⟨-, -, k, mode, sp, hc⟩ | ⟨-, hact, -⟩ := (exec_agentStep h).act_cases
  · rw [hact] at hm
    rw [hlog]
    exact hI.actLast m c hm
  · rw [hc.logged]
    by_cases hmk : m = k
    · subst hmk
      rw [lastCommand_append_self, ← hc.written, hm]
    · rw [hc.others m hmk] at hm
      rw [lastCommand_append_other hmk]
      exact hI.actLast m c hm
  · rw [hact, ActRegs.get_unset] at hm
    cases hm

/-- Every row keeps `BlockInv`. -/
theorem exec_keeps_blockInv : BlockInv t := by
  have hp : t.params = s.params := (exec_effect h).params_eq
  obtain ⟨hrx, hcap⟩ := exec_keeps_rx hI h
  obtain ⟨hwire, haddr⟩ := exec_keeps_bus hI h
  exact {
    params := hp ▸ hI.params
    cntRange := hp ▸ exec_keeps_cntRange hI h
    rx := hrx
    rxCap := hp ▸ hcap
    wireSent := hwire
    addressed := hp ▸ haddr
    actLast := exec_keeps_actLast hI h }

end Exec

/-- `BlockInv` does not speak of the script. -/
theorem BlockInv.withScript {s : State} (h : BlockInv s) (es : List Event) : BlockInv (s.withScript es) :=
  ⟨h.params, h.cntRange, h.rx, h.rxCap, h.wireSent, h.addressed, h.actLast⟩

/-- Settles O49: every row keeps `BlockInv`, part by part, so every step does. -/
theorem everyStepKeepsTheInvariant : Obligations.EveryStepKeepsTheInvariant := fun _ _ =>
  step_keeps (fun _ es hs => hs.withScript es) fun _ _ _ he hs => exec_keeps_blockInv hs he

/-- The parameters at reset are in the ranges of R7. -/
theorem config_params_admitted : Config.params.Admitted := by
  have hb : Config.busNChoice % 253 < 253 := Nat.mod_lt _ (by decide)
  refine ⟨Nat.le_add_right _ _, Nat.le_add_right _ _, ?_⟩
  show 3 + Config.busNChoice % 253 ≤ 255
  omega

/-- `BlockInv` holds at reset: all counters are 0, nothing is buffered, sent or written. -/
theorem blockInv_reset : BlockInv State.reset where
  params := config_params_admitted
  cntRange k := (Counters.get_zero k).symm ▸ inRange_zero _
  rx := rfl
  rxCap := Nat.zero_le _
  wireSent := List.suffix_rfl
  addressed _ h := absurd h List.not_mem_nil
  actLast m _ h := nomatch (ActRegs.get_unset m).symm.trans h

/-- Settles O48: at reset nothing has been sent, received or commanded. -/
theorem invariantsHoldAtReset : Obligations.InvariantsHoldAtReset :=
  ⟨blockInv_reset,
    { wireSent := fun _ h => absurd h List.not_mem_nil
      received := fun h => absurd rfl h
      commandsSent := fun _ h => absurd h List.not_mem_nil },
    ⟨[], rfl, List.Sublist.slnil⟩, Nat.le_refl 0⟩

end Sys2Proof.Machine
end

section
/-! PROOF. `decode` answers well-formed rows only, so a step does what a well-formed row can do (R73). -/

namespace Sys2Proof

/-- A row of R64 for a polled channel is well-formed, whatever levels it is given. -/
theorem decodeQPRow_wellFormed (c : PollChan) (lab : BitVec 3) : (decodeQPRow c lab).wellFormed = true := by
  unfold decodeQPRow
  repeat' split
  all_goals rfl

/-- The row for no polled channel is selected by 0, 1 and 7 only (R73). -/
theorem decodeQP_wellFormed (k lab : BitVec 3) : (decodeQP k lab).wellFormed = true := by
  unfold decodeQP
  split
  · exact decodeQPRow_wellFormed _ lab
  · next hk => exact (PollChan.ofSel_eq_none k).mp hk

/-- `FR_DRAIN` is selected by the byte counts other than 3 (R69). -/
theorem decodeRX_wellFormed (n : BitVec 8) : (decodeRX n).wellFormed = true := by
  unfold decodeRX
  split
  · rfl
  · next hn => exact bne_iff_ne.mpr hn

/-- A stop row is what its actuator's forward and backward rows leave, and `FRX_IGNORE` what all three actuators leave
(R70). -/
theorem decodeFR_wellFormed (f : BitVec 24) : (decodeFR f).wellFormed = true := by
  rw [← packFrame_bytes f, decodeFR_packFrame]
  generalize frameByte0 f = m, frameByte1 f = d, frameByte2 f = sp
  have stop {a : Byte} (h1 : ¬ (m = a ∧ d = 1)) (h2 : ¬ (m = a ∧ d = 2)) (ha : m = a) : decodesAsStop d = true :=
    Bool.and_eq_true_iff.mpr ⟨bne_iff_ne.mpr fun hd => h1 ⟨ha, hd⟩, bne_iff_ne.mpr fun hd => h2 ⟨ha, hd⟩⟩
  split_ifs with fwd1 bwd1 id1 fwd2 bwd2 id2 fwd3 bwd3 id3
  · rfl
  · rfl
  · exact stop fwd1 bwd1 id1
  · rfl
  · rfl
  · exact stop fwd2 bwd2 id2
  · rfl
  · rfl
  · exact stop fwd3 bwd3 id3
  · exact Machine.namesNoActuator_eq_true.mpr ⟨id1, id2, id3⟩

/-- Every key selects a well-formed row (R73). -/
theorem decode_wellFormed (key : Key) : (decode key).wellFormed = true := by
  cases key with
  | qe ab => revert ab; decide
  | qp k lab => exact decodeQP_wellFormed k lab
  | rd k => revert k; decide
  | tx f => rfl
  | xf o => revert o; decide
  | rx n => exact decodeRX_wellFormed n
  | fr f => exact decodeFR_wellFormed f
  | ev t lines =>
    show (decodeEV t lines).wellFormed = true
    unfold decodeEV
    split <;> rfl

end Sys2Proof

namespace Sys2Proof.Machine

/-- A property that no effect of a well-formed row and no change of the script breaks is kept by every step. -/
theorem step_keeps_of_effect {P : State → Prop} (hscript : ∀ s es, P s → P (s.withScript es))
    (heffect : ∀ s t, Effect True s t → P s → P t) {s t : State} (hP : P s) (h : step s = .next t) : P t := by
  obtain ⟨es, ⟨key, hk⟩ | hn⟩ := step_cases s
  · have he := exec_effect (hk.symm.trans h)
    rw [eq_true (decode_wellFormed key)] at he
    exact heffect _ _ he (hscript s es hP)
  · cases hn.symm.trans h
    exact hscript s es hP

end Sys2Proof.Machine
end

section
/-! PROOF. The way of a transaction from `bus_log` over `wire` and the receive state to `act_log` (R54, R104, R107):
`wire` is a FIFO, and no transaction is carried out twice or before an earlier one. -/

namespace Sys2Proof.Machine

/-- Settles O32: the three cases are all that any effect of a row does to the bus. -/
theorem wireIsAFifo : Obligations.WireIsAFifo := fun _ _ _ h => (exec_effect h).bus_cases

/-- What a row does to the bus, the receive state and `act_log` together; `wf` as in `Effect`. -/
inductive TransferStep (wf : Prop) (s t : State) : Prop where
  | untouched (slave : SameSlave s t) (bus : SameBus s t)
  | sent (x : Txn) (wire : t.wire = s.wire ++ [x]) (busLog : t.busLog = s.busLog ++ [x]) (slave : SameSlave s t)
  /-- The oldest transaction leaves `wire`; what reaches the slave is a beginning of its frame (R104). -/
  | taken (x : Txn) (idle : s.rxN = none) (wire : s.wire = x :: t.wire) (busLog : t.busLog = s.busLog)
      (actLog : t.actLog = s.actLog) (received : t.rxN ≠ none → t.rxbuf <+: [x.b0, x.b1, x.b2])
  /-- The notification, if any, is gone without a command (R107, R108, R150). -/
  | discarded (bus : SameBus s t) (actLog : t.actLog = s.actLog) (rxN : t.rxN = none)
  /-- The notification is gone and its command logged (R107). -/
  | commanded {k : Motor} {mode : Mode} {d sp : Byte} (hm : wf → mode = dirdecode d) (rxN : s.rxN = some 3)
      (rxbuf : s.rxbuf = [motorId k, d, sp]) (done : Commanded k mode sp s t)

/-- Every effect of a row is one of these. -/
theorem Effect.transferStep {wf : Prop} {s t : State} (h : Effect wf s t) : TransferStep wf s t := by
  cases h with
  | held => exact .untouched (.refl s) (.refl s)
  | edge a b => exact .untouched (qdEdge_fired a b s).slave (qdEdge_fired a b s).bus
  | poll k a b => exact .untouched (qdPoll_leaves k a b s).1 (qdPoll_leaves k a b s).2.1
  | read k => exact .untouched (qdRead_readOut k s).slave (qdRead_readOut k s).bus
  | send m d sp => exact .sent _ rfl rfl (busTx_sent m d sp s).slave
  | @xfer o x rest hw hn =>
    cases o with
    | deliver => exact .taken x hn hw rfl rfl fun _ => List.prefix_rfl
    | drop => exact .taken x hn hw rfl rfl fun hne => absurd hn hne
    | prefix1 => exact .taken x hn hw rfl rfl fun _ => ⟨[x.b1, x.b2], rfl⟩
    | prefix2 => exact .taken x hn hw rfl rfl fun _ => ⟨[x.b2], rfl⟩
  | ignored | drained | slaveReset => exact .discarded ⟨rfl, rfl⟩ rfl rfl
  | commanded k mode hm hn hb => exact .commanded hm hn hb (actCmd_commanded k mode _ s)
  | masterReset => exact .untouched ⟨rfl, rfl, rfl, rfl⟩ ⟨rfl, rfl⟩

/-! ## No duplicate -/

/-- A frame for actuator `k` stands for one command to it (R107). -/
theorem Txn.command_of_frame {x : Txn} {k : Motor} {d sp : Byte} (h : [motorId k, d, sp] <+: [x.b0, x.b1, x.b2]) :
    x.command = some ⟨k, ⟨dirdecode d, sp⟩⟩ := by
  obtain ⟨h0, h1, h2⟩ : motorId k = x.b0 ∧ d = x.b1 ∧ sp = x.b2 := by simpa using h.eq_of_length rfl
  rw [Txn.command, ← h0, ← h1, ← h2, motorOfId_motorId, Option.map_some]

/-- While no notification is in progress, all that left `wire` may have been carried out. -/
theorem inOrder_iff_of_idle {s : State} (h : s.rxN = none) : InOrder s ↔
    ∃ passed, s.busLog = passed ++ s.wire ∧ s.actLog.Sublist (passed.filterMap Txn.command) := by
  unfold InOrder; rw [h]

/-- While one is in progress, its transaction is the last that left `wire`, and those before it may have been. -/
theorem inOrder_iff_of_notified {s : State} (h : s.rxN ≠ none) : InOrder s ↔
    ∃ earlier x, s.busLog = (earlier ++ [x]) ++ s.wire ∧ s.rxbuf <+: [x.b0, x.b1, x.b2] ∧
      s.actLog.Sublist (earlier.filterMap Txn.command) := by
  obtain ⟨n, hn⟩ := Option.ne_none_iff_exists'.mp h
  unfold InOrder
  rw [hn]
  constructor
  · rintro ⟨_, hlog, earlier, x, rfl, hx⟩
    exact ⟨earlier, x, hlog, hx⟩
  · rintro ⟨earlier, x, hlog, hx⟩
    exact ⟨_, hlog, earlier, x, rfl, hx⟩

/-- Commands of earlier transactions are commands of the earlier and one more. -/
theorem sublist_commands_concat {log : List ActEntry} {earlier : List Txn} (x : Txn)
    (h : log.Sublist (earlier.filterMap Txn.command)) : log.Sublist ((earlier ++ [x]).filterMap Txn.command) :=
  h.trans ((List.sublist_append_left earlier [x]).filterMap _)

section InOrder
variable {s t : State}

/-- With or without a notification, the commands logged are among those of the transactions that left `wire`. -/
theorem InOrder.actLog_sublist (h : InOrder s) :
    ∃ passed, s.busLog = passed ++ s.wire ∧ s.actLog.Sublist (passed.filterMap Txn.command) := by
  by_cases hn : s.rxN = none
  · exact (inOrder_iff_of_idle hn).mp h
  · obtain ⟨earlier, x, hlog, -, hsub⟩ := (inOrder_iff_of_notified hn).mp h
    exact ⟨earlier ++ [x], hlog, sublist_commands_concat x hsub⟩

/-- A step that leaves the slave and what has left `wire` alone keeps the order. -/
theorem InOrder.of_sameSlave (h : InOrder s) (hs : SameSlave s t)
    (hbus : ∀ passed, s.busLog = passed ++ s.wire → t.busLog = passed ++ t.wire) : InOrder t := by
  obtain ⟨passed, hlog, hp⟩ := h
  refine ⟨passed, hbus passed hlog, ?_⟩
  rw [hs.rxN, hs.rxbuf, hs.actLog]
  exact hp

/-- A transaction taken from `wire` is the last that left it (R104). -/
theorem InOrder.of_taken (h : InOrder s) {x : Txn} (idle : s.rxN = none) (wire : s.wire = x :: t.wire)
    (busLog : t.busLog = s.busLog) (actLog : t.actLog = s.actLog)
    (received : t.rxN ≠ none → t.rxbuf <+: [x.b0, x.b1, x.b2]) : InOrder t := by
  obtain ⟨passed, hlog, hsub⟩ := (inOrder_iff_of_idle idle).mp h
  have hlog' : t.busLog = (passed ++ [x]) ++ t.wire := by
    rw [busLog, hlog, wire, List.append_assoc, List.singleton_append]
  rw [← actLog] at hsub
  by_cases hn : t.rxN = none
  · exact (inOrder_iff_of_idle hn).mpr ⟨_, hlog', sublist_commands_concat x hsub⟩
  · exact (inOrder_iff_of_notified hn).mpr ⟨passed, x, hlog', received hn, hsub⟩

/-- A notification may go without a command (R107, R108). -/
theorem InOrder.of_discarded (h : InOrder s) (bus : SameBus s t) (actLog : t.actLog = s.actLog) (rxN : t.rxN = none) :
    InOrder t := by
  rw [inOrder_iff_of_idle rxN, bus.busLog, bus.wire, actLog]
  exact h.actLog_sublist

/-- A command stands for the transaction whose notification it consumes, and follows those of the earlier ones
(R107). -/
theorem InOrder.of_commanded (h : InOrder s) {k : Motor} {d sp : Byte} (rxN : s.rxN = some 3)
    (rxbuf : s.rxbuf = [motorId k, d, sp]) (done : Commanded k (dirdecode d) sp s t) : InOrder t := by
  obtain ⟨earlier, x, hlog, hframe, hsub⟩ := (inOrder_iff_of_notified (by simp [rxN])).mp h
  have hx : x.command = some ⟨k, ⟨dirdecode d, sp⟩⟩ := Txn.command_of_frame (rxbuf ▸ hframe)
  rw [inOrder_iff_of_idle done.consumed.2, done.bus.busLog, done.bus.wire, done.logged]
  refine ⟨earlier ++ [x], hlog, ?_⟩
  rw [List.filterMap_append, List.filterMap_cons_some hx, List.filterMap_nil]
  exact hsub.append (List.Sublist.refl _)

/-- Whatever a well-formed row does to bus and slave keeps the order. -/
theorem TransferStep.keeps_inOrder (h : TransferStep True s t) (hs : InOrder s) : InOrder t := by
  cases h with
  | untouched slave bus => exact hs.of_sameSlave slave fun p hp => by rw [bus.busLog, bus.wire, hp]
  | sent x wire busLog slave =>
    exact hs.of_sameSlave slave fun p hp => by rw [busLog, wire, hp, List.append_assoc]
  | taken x idle wire busLog actLog received => exact hs.of_taken idle wire busLog actLog received
  | discarded bus actLog rxN => exact hs.of_discarded bus actLog rxN
  | commanded hm rxN rxbuf done =>
    cases hm trivial
    exact hs.of_commanded rxN rxbuf done

end InOrder

/-- Settles O51: whatever a transaction's way through the block does in one step, it keeps the order. -/
theorem noTransactionIsDuplicated : Obligations.NoTransactionIsDuplicated := fun _ _ =>
  step_keeps_of_effect (fun _ _ hs => hs) fun _ _ he hs => he.transferStep.keeps_inOrder hs

/-! ## The bound on counts -/

/-- A transaction is counted once wherever it is: on `wire`, in the notification, or in `act_log`. -/
theorem TransferStep.keeps_countsBounded {wf : Prop} {s t : State} (h : TransferStep wf s t) (hs : CountsBounded s) :
    CountsBounded t := by
  unfold CountsBounded at *
  cases h with
  | untouched slave bus =>
    rw [slave.actLog, slave.rxN, bus.wire, bus.busLog]
    exact hs
  | sent x wire busLog slave =>
    rw [slave.actLog, slave.rxN, wire, busLog, List.length_append, List.length_append]
    omega
  | taken x idle wire busLog actLog _ =>
    have hle : t.rxN.toList.length ≤ 1 := Option.length_toList_le
    rw [idle, wire, Option.toList_none, List.length_nil, List.length_cons] at hs
    rw [actLog, busLog]
    omega
  | discarded bus actLog rxN =>
    rw [actLog, rxN, bus.wire, bus.busLog, Option.toList_none, List.length_nil]
    omega
  | commanded _ rxN _ done =>
    rw [rxN, Option.toList_some, List.length_singleton] at hs
    rw [done.logged, done.consumed.2, done.bus.wire, done.bus.busLog, List.length_append, List.length_singleton,
      Option.toList_none, List.length_nil]
    exact hs

/-- Settles O60: no step counts a transaction at two places. -/
theorem commandsAreBoundedByTransactions : Obligations.CommandsAreBoundedByTransactions := fun _ _ =>
  step_keeps_of_effect (fun _ _ hs => hs) fun _ _ he hs => he.transferStep.keeps_countsBounded hs

end Sys2Proof.Machine
end

section
/-! PROOF. The ten rows of R70 as nine commands, one for each actuator and mode, and the row for no actuator. -/

namespace Sys2Proof.Machine

/-- The row of R70 for a command to an actuator: only the stop rows keep the direction byte. -/
def commandRow (k : Motor) (mode : Mode) (d sp : Byte) : Instr :=
  match k, mode with
  | .m1, .fwd => .frxFwdM1 sp
  | .m1, .bwd => .frxBwdM1 sp
  | .m1, .stop => .frxStopM1 d sp
  | .m2, .fwd => .frxFwdM2 sp
  | .m2, .bwd => .frxBwdM2 sp
  | .m2, .stop => .frxStopM2 d sp
  | .m3, .fwd => .frxFwdM3 sp
  | .m3, .bwd => .frxBwdM3 sp
  | .m3, .stop => .frxStopM3 d sp

/-- The direction bytes other than forward and backward (R109). -/
theorem dirdecode_of_ne {d : Byte} (h1 : d ≠ 1) (h2 : d ≠ 2) : dirdecode d = .stop :=
  (if_neg h1).trans (if_neg h2)

/-- Forward, backward, or any other byte (R109). -/
theorem dirdecode_cases (d : Byte) :
    (d = 1 ∧ dirdecode d = .fwd) ∨ (d = 2 ∧ dirdecode d = .bwd) ∨ ((d ≠ 1 ∧ d ≠ 2) ∧ dirdecode d = .stop) := by
  by_cases h1 : d = 1
  · exact .inl ⟨h1, congrArg dirdecode h1⟩
  · by_cases h2 : d = 2
    · exact .inr (.inl ⟨h2, congrArg dirdecode h2⟩)
    · exact .inr (.inr ⟨⟨h1, h2⟩, dirdecode_of_ne h1 h2⟩)

/-- A frame for an actuator selects the row of its decoded direction (R70, R109). -/
theorem decode_fr_motorId (k : Motor) (d sp : Byte) :
    decode (.fr (packFrame (motorId k) d sp)) = commandRow k (dirdecode d) d sp := by
  refine (decodeFR_packFrame (motorId k) d sp).trans ?_
  obtain ⟨rfl, hd⟩ | ⟨rfl, hd⟩ | ⟨⟨h1, h2⟩, hd⟩ := dirdecode_cases d <;> rw [hd]
  · cases k <;> rfl
  · cases k <;> rfl
  · simp only [h1, h2, and_false, if_false]
    cases k <;> rfl

/-- A frame for no actuator selects the last row (R70). -/
theorem decode_fr_unknown {m : Byte} (h : motorOfId m = none) (d sp : Byte) :
    decode (.fr (packFrame m d sp)) = .frxIgnore m d sp := by
  obtain ⟨h1, h2, h3⟩ := motorOfId_eq_none.mp h
  refine (decodeFR_packFrame m d sp).trans ?_
  simp only [h1, h2, h3, false_and, if_false]

/-- The row of a command is `FR_RECV` of a frame with its direction (R70). -/
theorem exec_commandRow (k : Motor) (d sp : Byte) (s : State) :
    exec (commandRow k (dirdecode d) d sp) s =
      .next (recvRow (motorId k) d sp (actCmd k (dirdecode d) sp) s) := by
  obtain ⟨rfl, hd⟩ | ⟨rfl, hd⟩ | ⟨-, hd⟩ := dirdecode_cases d <;> rw [hd] <;> cases k <;> rfl

/-- The key of a command's row is its frame: the stop rows keep the direction byte that the others fix. -/
theorem encode_commandRow (k : Motor) (d sp : Byte) :
    encode (commandRow k (dirdecode d) d sp) = .fr (packFrame (motorId k) d sp) := by
  obtain ⟨rfl, hd⟩ | ⟨rfl, hd⟩ | ⟨-, hd⟩ := dirdecode_cases d <;> rw [hd] <;> cases k <;> rfl

end Sys2Proof.Machine
end

section
/-! PROOF. `encode` gives back every canonical key, and a raw word of a format's width is a key (R60, R73, R75). -/

namespace Sys2Proof

/-- Of a poll of a polled channel the row keeps all three levels (R64). -/
theorem encode_decodeQPRow (c : PollChan) (lab : BitVec 3) : encode (decodeQPRow c lab) = .qp c.sel lab := by
  cases c <;> revert lab <;> decide

/-- Of a poll of no polled channel the row keeps the sampled levels; such a key has no `l` (R62, R73). -/
theorem packLAB_false_of_getLsbD_two : ∀ lab : BitVec 3, lab.getLsbD 2 = false →
    packLAB false (packAB (lab.getLsbD 1) (lab.getLsbD 0)) = lab := by decide

theorem encode_decodeQP {k lab : BitVec 3} (h : (Key.qp k lab).canonical = true) :
    encode (decodeQP k lab) = .qp k lab := by
  unfold decodeQP
  cases hk : PollChan.ofSel k with
  | some c => exact (encode_decodeQPRow c lab).trans (by rw [PollChan.sel_of_ofSel hk])
  | none =>
    have hl : lab.getLsbD 2 = false := by simpa [Key.canonical, hk] using h
    exact congrArg (Key.qp k) (packLAB_false_of_getLsbD_two lab hl)

theorem encode_decodeRX (n : BitVec 8) : encode (decodeRX n) = .rx n := by
  unfold decodeRX
  split
  · next hn => rw [hn]; rfl
  · rfl

/-- A frame's row has that frame as its key, whether or not it addresses an actuator (R70). -/
theorem encode_decodeFR (f : BitVec 24) : encode (decode (.fr f)) = .fr f := by
  rw [← packFrame_bytes f]
  cases hm : Machine.motorOfId (frameByte0 f) with
  | some k => rw [Machine.motorOfId_eq_some.mp hm, Machine.decode_fr_motorId, Machine.encode_commandRow]
  | none => rw [Machine.decode_fr_unknown hm]; rfl

/-- A reset of the slave samples no levels (R72, R150). -/
theorem encode_decodeEV {t : BitVec 1} {lines : PollLevels} (h : (Key.ev t lines).canonical = true) :
    encode (decodeEV t lines) = .ev t lines := by
  have ht : ∀ t : BitVec 1, t = 0 ∨ t = 1 := by decide
  obtain rfl | rfl := ht t
  · rfl
  · have hl : lines = PollLevels.low := by simpa [Key.canonical] using h
    rw [hl]; rfl

/-- The row that a canonical key selects has that key. -/
theorem encode_decode {key : Key} (h : key.canonical = true) : encode (decode key) = key := by
  cases key with
  | qe ab => revert ab; decide
  | qp k lab => exact encode_decodeQP h
  | rd k => revert k; decide
  | tx f => exact congrArg Key.tx (packFrame_bytes f)
  | xf o => revert o; decide
  | rx n => exact encode_decodeRX n
  | fr f => exact encode_decodeFR f
  | ev t lines => exact encode_decodeEV h

/-- Settles O2: `decode` answers well-formed rows only, and `encode` inverts it on the canonical keys. -/
theorem everyKeySelectsOneWellFormedRow : Obligations.EveryKeySelectsOneWellFormedRow :=
  fun key => ⟨decode_wellFormed key, encode_decode⟩

/-! ## Raw words -/

section RawWords
variable {f : Format} {w : Nat} (k : BitVec 3) (lines : PollLevels)

theorem decodeWord_of_width_le (h : 2 ^ f.width ≤ w) : decodeWord f k lines w = .error (.bitsAboveWidth f) := by
  unfold decodeWord keyOfWord
  rw [if_pos h]

theorem decodeWord_ps (h : w < 2 ^ Format.ps.width) : decodeWord .ps k lines w = .error .pseudoEvent := by
  unfold decodeWord keyOfWord
  rw [if_neg (Nat.not_le.mpr h)]

/-- Every format but `PS` has a key for each word of its width (R60). -/
theorem exists_keyOfWord_eq_ok (h : w < 2 ^ f.width) (hf : f ≠ .ps) : ∃ key, keyOfWord f k lines w = .ok key := by
  unfold keyOfWord
  rw [if_neg (Nat.not_le.mpr h)]
  cases f with
  | ps => exact absurd rfl hf
  | qe | qp | rd | tx | xf | rx | fr | ev => exact ⟨_, rfl⟩

theorem decodeWord_of_key {key : Key} (h : keyOfWord f k lines w = .ok key) :
    decodeWord f k lines w = .ok (decode key) := by
  unfold decodeWord
  rw [h]

end RawWords

/-- Settles O4: within its width a word of every format but `PS` is a key, and a key decodes. -/
theorem rawWordsAreKeysWithinTheirWidth : Obligations.RawWordsAreKeysWithinTheirWidth := by
  intro f k lines w
  refine ⟨decodeWord_of_width_le k lines, fun hw hf => ?_, ?_⟩
  · obtain ⟨key, hkey⟩ := exists_keyOfWord_eq_ok k lines hw hf
    exact ⟨decode key, decodeWord_of_key k lines hkey, decode_wellFormed key⟩
  · rintro hw rfl
    exact decodeWord_ps k lines hw

/-- Settles O5: the two branches of R69. -/
theorem byteCountSelectsTheReceiveOperation : Obligations.ByteCountSelectsTheReceiveOperation :=
  fun _ => ⟨fun h => if_pos h, fun h => if_neg h⟩

end Sys2Proof
end

section
/-! PROOF. A step runs the row its event decodes to, and every canonical key has an event that gives it to decode
(R60, log 18). -/

namespace Sys2Proof.Machine

/-- Settles O6: an event that is no pass stands for itself, and its key is what `fetch` gives to decode. -/
theorem stepRunsTheDecodedRow : Obligations.StepRunsTheDecodedRow := by
  intro s e rest key he hs hk
  have hf : fetch s = (keyOf s e, s.withScript rest) := fetch_event hs (expandEvent_of_ne_ps he)
  exact step_of_fetch_some (hk ▸ hf)

/-- The event whose key a key is: its fields without those that are state (R62, R69, R70). -/
def keyEvent : Key → Event
  | .qe ab => .qe ab
  | .qp k lab => .qp k (lab.extractLsb' 0 2)
  | .rd k => .rd k
  | .tx f => .tx f
  | .xf o => .xf o
  | .rx _ => .rx
  | .fr _ => .fr
  | .ev t lines => .ev t lines

theorem keyEvent_ne_ps (key : Key) (w : BitVec 10) : keyEvent key ≠ .ps w := by
  cases key <;> exact Event.noConfusion

theorem placeKey_script (key : Key) (s : State) : (placeKey key s).script = keyEvent key :: s.script := by
  cases key with
  | qp k lab => unfold placeKey; dsimp only; split <;> rfl
  | qe | rd | tx | xf | rx | fr | ev => rfl

/-- The three levels of a poll key, with `l` apart (R60). -/
theorem packLAB_split : ∀ lab : BitVec 3, packLAB (lab.getLsbD 2) (lab.extractLsb' 0 2) = lab := by decide

/-- Placing a poll key puts its `l` where the decoder reads it, if there is such a level (R62). -/
theorem keyLevel_placeKey_qp {k lab : BitVec 3} (h : (Key.qp k lab).canonical = true) (s : State) :
    keyLevel k (placeKey (.qp k lab) s) = lab.getLsbD 2 := by
  cases hk : PollChan.ofSel k with
  | some c => simp [keyLevel, placeKey, hk]
  | none => simpa [keyLevel, Key.canonical, hk] using h

/-- Placing an `FR` key makes its frame the one received (R70). -/
theorem rxFrame_placeKey_fr (f : BitVec 24) (s : State) :
    ∃ t, rxFrame (placeKey (.fr f) s) = some (frameByte0 f, frameByte1 f, frameByte2 f, t) :=
  ⟨_, rxFrame_eq_some.mpr ⟨rfl, rfl, rfl⟩⟩

/-- In the state in which a key is placed, its event gives that key. -/
theorem keyOf_placeKey {key : Key} (h : key.canonical = true) (s : State) :
    keyOf (placeKey key s) (keyEvent key) = some key := by
  cases key with
  | qp k lab =>
    show some (Key.qp k (packLAB (keyLevel k (placeKey (.qp k lab) s)) (lab.extractLsb' 0 2))) = some (.qp k lab)
    rw [keyLevel_placeKey_qp h, packLAB_split]
  | fr f =>
    obtain ⟨t, ht⟩ := rxFrame_placeKey_fr f s
    simp only [keyOf, keyEvent, ht, packFrame_bytes]
  | qe | rd | tx | xf | rx | ev => rfl

/-- Settles O8: the placed event comes next and gives the key. -/
theorem everyKeyCanBePlacedAndRun : Obligations.EveryKeyCanBePlacedAndRun := fun key s h =>
  stepRunsTheDecodedRow _ _ _ key (keyEvent_ne_ps key) (placeKey_script key s) (keyOf_placeKey h s)

end Sys2Proof.Machine
end

section
/-! PROOF. The tables of the quadrature decoder: what each pattern selects and does (R63 to R66, R73). -/

namespace Sys2Proof.Machine

/-- Settles O11: each row fires with the two levels of its pattern. -/
theorem edgeFiringFollowsItsTable : Obligations.EdgeFiringFollowsItsTable := fun s =>
  ⟨⟨rfl, _, rfl, qdEdge_fired false false s⟩, ⟨rfl, _, rfl, qdEdge_fired true true s⟩,
    ⟨rfl, _, rfl, qdEdge_fired true false s⟩, ⟨rfl, _, rfl, qdEdge_fired false true s⟩⟩

/-- A poll of a polled channel is decoded by the eight rows of R64. -/
theorem decode_qp_sel (k : PollChan) (lab : BitVec 3) : decode (.qp k.sel lab) = decodeQPRow k lab := by
  simp only [decode, decodeQP, PollChan.ofSel_sel]

/-- Settles O13: a hold row samples the stored level, every other row its opposite. -/
theorem pollFollowsItsTable : Obligations.PollFollowsItsTable := by
  intro s k
  refine ⟨fun hl => ?_, fun hl => ?_⟩
  · have hold (b : Level) : qdPoll k false b s = s := qdPoll_hold hl.symm
    have polled (b : Level) := qdPoll_polled (k := k) (a := true) (b := b) (s := s) (by simp [hl])
    exact ⟨⟨decode_qp_sel k _, congrArg _ (hold false)⟩, ⟨decode_qp_sel k _, congrArg _ (hold true)⟩,
      ⟨decode_qp_sel k _, _, rfl, polled false⟩, ⟨decode_qp_sel k _, _, rfl, polled true⟩⟩
  · have hold (b : Level) : qdPoll k true b s = s := qdPoll_hold hl.symm
    have polled (b : Level) := qdPoll_polled (k := k) (a := false) (b := b) (s := s) (by simp [hl])
    exact ⟨⟨decode_qp_sel k _, congrArg _ (hold false)⟩, ⟨decode_qp_sel k _, congrArg _ (hold true)⟩,
      ⟨decode_qp_sel k _, _, rfl, polled true⟩, ⟨decode_qp_sel k _, _, rfl, polled false⟩⟩

/-- A poll of no polled channel is decoded to the row that refuses it (R73). -/
theorem decodeQP_of_ofSel_none {k : BitVec 3} (h : PollChan.ofSel k = none) (lab : BitVec 3) :
    decodeQP k lab = .qpNoSuchChannel k (lab.getLsbD 1) (lab.getLsbD 0) := by
  unfold decodeQP
  rw [h]

/-- Settles O15: 0, 1 and 7 select no polled channel, so the step runs the refusing row. -/
theorem pollOutsideTheChannelsIsRefused : Obligations.PollOutsideTheChannelsIsRefused := by
  intro s k a b hk
  have hsel : PollChan.ofSel k = none := by
    obtain rfl | rfl | rfl := hk <;> rfl
  refine ⟨rfl, ?_⟩
  rw [step_qp rfl, decodeQP_of_ofSel_none hsel]
  rfl

/-- Settles O16: each read row reads the channel of its select; the two reserved rows refuse. -/
theorem readPortSelectsTheCounter : Obligations.ReadPortSelectsTheCounter := fun s =>
  ⟨⟨rfl, _, rfl, qdRead_readOut .e1 s⟩, ⟨rfl, _, rfl, qdRead_readOut .e2 s⟩, ⟨rfl, _, rfl, qdRead_readOut .e3 s⟩,
    ⟨rfl, _, rfl, qdRead_readOut .e4 s⟩, ⟨rfl, _, rfl, qdRead_readOut .e5 s⟩, ⟨rfl, _, rfl, qdRead_readOut .e6 s⟩,
    ⟨rfl, rfl⟩, ⟨rfl, rfl⟩⟩

end Sys2Proof.Machine
end

section
/-! PROOF. The tables of the frame codec: sends, transport outcomes and the ten frame rows (R68, R70, R71). -/

namespace Sys2Proof.Machine

/-- Settles O28: the row keeps the three bytes of the key, and `BusTx` sends them. -/
theorem sendTransmitsTheBytesUnchanged : Obligations.SendTransmitsTheBytesUnchanged := by
  intro s m d sp
  refine ⟨?_, _, rfl, busTx_sent m d sp s⟩
  simp only [decode, decodeTX, frameByte0_packFrame, frameByte1_packFrame, frameByte2_packFrame]

/-! ## Transport outcomes -/

/-- A transaction taken from `wire` leaves on the slave what its outcome delivers, and nothing else (R104). -/
theorem deliver_moved (o : XferOutcome) (x : Txn) (rest : List Txn) (s : State) :
    Moved rest (deliver o x s).rxbuf (deliver o x s).rxN s (deliver o x (s.withWire rest)) := by
  cases o <;> exact ⟨rfl, rfl, rfl, rfl, rfl, rfl, ⟨rfl, rfl⟩, ⟨rfl, rfl, rfl⟩⟩

/-- `BUS_XFER` where it is enabled: it moves the oldest transaction if the outcome is admitted, and is refused if not
(R71, R104). -/
theorem busXfer_enabled (o : XferOutcome) {s : State} {x : Txn} {rest : List Txn} (hw : s.wire = x :: rest)
    (hn : s.rxN = none) :
    (admitted s.params.xferFaults o = true →
      ∃ t, busXfer o s = .next t ∧ Moved rest (deliver o x s).rxbuf (deliver o x s).rxN s t) ∧
    (admitted s.params.xferFaults o = false → busXfer o s = .refused .transportOutcomeNotAdmitted) :=
  ⟨fun ha => ⟨_, busXfer_moves hw hn ha, deliver_moved o x rest s⟩,
    busXfer_notAdmitted (hw ▸ List.cons_ne_nil x rest) hn⟩

/-- Settles O29: each code runs `BUS_XFER` with its outcome; a drop leaves the receive state as it was, idle. -/
theorem transportOutcomesFollowTheirTable : Obligations.TransportOutcomesFollowTheirTable := by
  intro s x rest hw hn
  have drop := busXfer_enabled .drop hw hn
  simp only [deliver, hn] at drop
  exact ⟨⟨rfl, (busXfer_enabled .deliver hw hn).1 rfl⟩, ⟨rfl, drop⟩, ⟨rfl, busXfer_enabled .prefix1 hw hn⟩,
    ⟨rfl, busXfer_enabled .prefix2 hw hn⟩⟩

/-! ## Frame rows -/

section Received
variable {s : State} {m d sp : Byte} (hn : s.rxN = some 3) (hb : s.rxbuf = [m, d, sp])
include hn hb

/-- The row selected by a frame received for an actuator does what `FR_RECV` does (R107). -/
theorem exec_commandRow_received {k : Motor} (hm : m = motorId k) :
    exec (commandRow k (dirdecode d) d sp) s = .next (frRecv s) := by
  subst hm
  rw [exec_commandRow, recvRow_enabled hn hb, frRecv_enabled hn hb, applyFrame_known]

/-- The last row, on a frame received for no actuator, consumes the notification, and so does `FR_RECV` (R107). -/
theorem exec_frxIgnore_received (hm : motorOfId m = none) :
    exec (.frxIgnore m d sp) s = .next (s.withRx [] none) ∧ frRecv s = s.withRx [] none :=
  ⟨congrArg _ (recvRow_enabled hn hb), (frRecv_enabled hn hb).trans (applyFrame_unknown hm d sp _)⟩

/-- What a frame received for an actuator selects and does (R70). -/
theorem frameRow_commands {k : Motor} (hm : m = motorId k) {mode : Mode} (hd : dirdecode d = mode) :
    decode (.fr (packFrame m d sp)) = commandRow k mode d sp ∧
      ∃ t, exec (commandRow k mode d sp) s = .next t ∧ Commanded k mode sp s t := by
  have hx := exec_commandRow_received hn hb hm
  subst hm hd
  exact ⟨decode_fr_motorId k d sp, _, hx, frRecv_commanded hn hb⟩

end Received

/-- Settles O34: nine rows command their actuator with their direction, the last consumes the frame. -/
theorem frameTableSelectsTheEffect : Obligations.FrameTableSelectsTheEffect := by
  intro s m d sp hn hb
  have fwd (k : Motor) (hm : m = motorId k) (hd : d = 1) :=
    frameRow_commands hn hb hm (mode := .fwd) (congrArg dirdecode hd)
  have bwd (k : Motor) (hm : m = motorId k) (hd : d = 2) :=
    frameRow_commands hn hb hm (mode := .bwd) (congrArg dirdecode hd)
  have stop (k : Motor) (hm : m = motorId k) (h1 : d ≠ 1) (h2 : d ≠ 2) :=
    frameRow_commands hn hb hm (dirdecode_of_ne h1 h2)
  refine ⟨fwd .m1, bwd .m1, stop .m1, fwd .m2, bwd .m2, stop .m2, fwd .m3, bwd .m3, stop .m3, fun h1 h2 h3 => ?_⟩
  have hm : motorOfId m = none := motorOfId_eq_none.mpr ⟨h1, h2, h3⟩
  exact ⟨decode_fr_unknown hm d sp, _, (exec_frxIgnore_received hn hb hm).1, withRx_onlyConsumed s⟩

/-- Settles O35: whichever row the frame selects, it does what `FR_RECV` does. -/
theorem receiveAgreesWithTheFrameTable : Obligations.ReceiveAgreesWithTheFrameTable := by
  intro s m d sp hn hb
  show Host.Outcome.next (frRecv s) = _
  cases hm : motorOfId m with
  | some k =>
    have hk : m = motorId k := motorOfId_eq_some.mp hm
    rw [(frameRow_commands hn hb hk rfl).1, exec_commandRow_received hn hb hk]
  | none =>
    obtain ⟨hrow, hrecv⟩ := exec_frxIgnore_received hn hb hm
    rw [decode_fr_unknown hm, hrow, hrecv]

end Sys2Proof.Machine
end

section
/-! PROOF. The steps of the decoder: a firing, polls, and a pass (R80 to R82, R88, R89). -/

namespace Sys2Proof.Machine

/-- Settles O12: the step of a firing is `QD_EDGE` with its two levels. -/
theorem edgeStepCountsByItsTwoLevels : Obligations.EdgeStepCountsByItsTwoLevels := fun _ a b _ h =>
  ⟨_, step_evEdge h, qdEdge_fired a b _⟩

/-- Settles O14: the step of a poll is `QD_POLL`, which compares with the level in the state. -/
theorem pollStepComparesWithTheStoredLevel : Obligations.PollStepComparesWithTheStoredLevel := fun _ _ _ _ _ h =>
  ⟨fun ha => (step_evPoll h).trans (congrArg _ (qdPoll_hold ha)), fun ha => ⟨_, step_evPoll h, qdPoll_polled ha⟩⟩

/-- Settles O21: where a == b a firing counts up and a poll that observes a change down, elsewhere the reverse. -/
theorem variantsCountWithOppositeSigns : Obligations.VariantsCountWithOppositeSigns := by
  intro s k a b ha
  have hfired := qdEdge_fired a b (s.withScript [])
  have hpolled := qdPoll_polled (s := s.withScript []) (b := b) ha
  by_cases hab : a = b
  · rw [if_pos hab] at hfired
    rw [if_pos hab.symm] at hpolled
    exact ⟨1, _, _, .inl rfl, step_evEdge rfl, hfired, step_evPoll rfl, hpolled⟩
  · rw [if_neg hab] at hfired
    rw [if_neg (Ne.symm hab)] at hpolled
    exact ⟨-1, _, _, .inr rfl, step_evEdge rfl, hfired, step_evPoll rfl, hpolled⟩

/-- Settles O22: each poll holds, so the stored level stays the one that all of them sample. -/
theorem revertedTransitionsAreLost : Obligations.RevertedTransitionsAreLost := by
  intro s k bs
  induction bs with
  | nil => rfl
  | cons b bs ih => rw [List.map_cons, runEvents_evPoll, qdPoll_hold rfl, ih]

/-! ## A pass -/

/-- A pass word made of five pairs of levels expands to the polls with these pairs (R60, R82). -/
theorem passEvents_append (x4 x3 x2 x1 x0 : BitVec 2) :
    passEvents (x4 ++ x3 ++ x2 ++ x1 ++ x0) = [.qp 2 x4, .qp 3 x3, .qp 4 x2, .qp 5 x1, .qp 6 x0] := by
  simp [passEvents, passPair, BitVec.extractLsb'_append_eq_of_le (w := 2),
    BitVec.extractLsb'_append_eq_right (w' := 2)]

/-- A pass takes the step of its first poll and leaves the other four in the script (log 11). -/
theorem step_evPass (a b : PollLevels) (rest : List Event) (s : State) :
    step (s.withScript (evPass a b :: rest)) =
      step (s.withScript (evPoll .e2 a.a2 b.a2 :: evPoll .e3 a.a3 b.a3 :: evPoll .e4 a.a4 b.a4 ::
        evPoll .e5 a.a5 b.a5 :: evPoll .e6 a.a6 b.a6 :: rest)) := by
  have expand (w : BitVec 10) : step (s.withScript (.ps w :: rest)) = step (s.withScript (passEvents w ++ rest)) := rfl
  rw [evPass, expand, passEvents_append]
  rfl

/-- A run that begins with a poll. -/
theorem run_evPoll (n : Nat) (k : PollChan) (a b : Level) (rest : List Event) (s : State) :
    run (n + 1) (s.withScript (evPoll k a b :: rest)) = run n ((qdPoll k a b s).withScript rest) := by
  rw [run_succ (step_evPoll rfl), withScript_withScript, qdPoll_withScript]

/-- Settles O9: a pass runs as its five polls, one after another. -/
theorem passIsTheFivePollsInOrder : Obligations.PassIsTheFivePollsInOrder := by
  intro s a b rest
  rw [run_step, step_evPass, ← run_step]
  simp only [run_evPoll, run_zero]

end Sys2Proof.Machine
end

section
/-! PROOF. Steps of different channels commute (R82): what a poll sees and writes is its own channel's. -/

namespace Sys2Proof

theorem PollLevels.set_comm (l : PollLevels) (u v : Level) {j k : PollChan} (h : j ≠ k) :
    (l.set j u).set k v = (l.set k v).set j u := by
  cases j <;> cases k <;> simp [PollLevels.set] at h ⊢

end Sys2Proof

namespace Sys2Proof.Machine

theorem Counters.set_comm (c : Counters) (u v : Count) {j k : Chan} (h : j ≠ k) :
    (c.set j u).set k v = (c.set k v).set j u := by
  cases j <;> cases k <;> simp [Counters.set] at h ⊢

/-- Counts of different channels commute (R20). -/
theorem addCnt_comm {j k : Chan} (h : j ≠ k) (d e : Int) (s : State) :
    addCnt j d (addCnt k e s) = addCnt k e (addCnt j d s) := by
  simp only [addCnt_def, State.withCnt_cnt, State.withCnt_params, Counters.get_set_other _ _ h,
    Counters.get_set_other _ _ h.symm, Counters.set_comm _ _ _ h]
  rfl

/-- A poll changes no other channel (R81). -/
theorem qdPoll_sameDecoderButPoll (k : PollChan) (a b : Level) (s : State) : SameDecoderButPoll k s (qdPoll k a b s) := by
  by_cases ha : a = s.lastA.get k
  · rw [qdPoll_hold ha]; exact ⟨fun _ _ => rfl, fun _ _ => rfl⟩
  · exact (qdPoll_polled ha).decoder

/-- A poll does not see a count of another channel (R81). -/
theorem qdPoll_addCnt {j : Chan} {k : PollChan} (h : j ≠ k.chan) (a b : Level) (d : Int) (s : State) :
    qdPoll k a b (addCnt j d s) = addCnt j d (qdPoll k a b s) := by
  by_cases ha : a = s.lastA.get k
  · rw [qdPoll_hold ha, qdPoll_hold (by exact ha)]
  · rw [qdPoll_changed ha, qdPoll_changed (by exact ha), addCnt_comm h.symm]
    rfl

/-- A poll does not see the stored level of another channel (R21, R81). -/
theorem qdPoll_withLastA_set {j k : PollChan} (h : j ≠ k) (a b c : Level) (s : State) :
    qdPoll k a b (s.withLastA (s.lastA.set j c)) = (qdPoll k a b s).withLastA ((qdPoll k a b s).lastA.set j c) := by
  have hget : (s.lastA.set j c).get k = s.lastA.get k := PollLevels.get_set_other _ _ h.symm
  by_cases ha : a = s.lastA.get k
  · rw [qdPoll_hold ha, qdPoll_hold (ha.trans hget.symm)]
  · rw [qdPoll_changed ha, qdPoll_changed (fun he => ha (he.trans hget)), State.withLastA_lastA,
      PollLevels.set_comm _ _ _ h]
    rfl

/-- Polls of different channels commute: a count and a stored level are all that one of them leaves for the other. -/
theorem qdPoll_comm {j k : PollChan} (h : j ≠ k) (a b c d : Level) (s : State) :
    qdPoll k a b (qdPoll j c d s) = qdPoll j c d (qdPoll k a b s) := by
  have hchan : j.chan ≠ k.chan := fun he => h (PollChan.chan_injective he)
  have hget : (qdPoll k a b s).lastA.get j = s.lastA.get j := (qdPoll_sameDecoderButPoll k a b s).levels j h
  by_cases hc : c = s.lastA.get j
  · rw [qdPoll_hold hc, qdPoll_hold (hc.trans hget.symm)]
  · rw [qdPoll_changed hc, qdPoll_changed fun he => hc (he.trans hget)]
    refine (qdPoll_withLastA_set h a b c (addCnt j.chan _ s)).trans ?_
    rw [qdPoll_addCnt hchan]
    rfl

/-- Settles O10: a firing is a count of channel 1, and no poll sees that channel. -/
theorem decoderStepsOfDifferentChannelsCommute : Obligations.DecoderStepsOfDifferentChannelsCommute := by
  intro s k j a b c d h
  simp only [runEvents_evPoll, runEvents_evEdge, runEvents_nil]
  refine ⟨⟨_, rfl, by rw [qdPoll_comm h]⟩, ⟨_, rfl, ?_⟩⟩
  rw [qdEdge_eq, qdEdge_eq, qdPoll_addCnt k.chan_ne_e1.symm]

end Sys2Proof.Machine
end

section
/-! PROOF. Counts over many steps: the limits of a counter, and the net sums of polls and firings (R84, R85, R87). -/

namespace Sys2Proof.Machine

/-! ## Limits -/

/-- One above the greatest value is the least (R84). -/
theorem wrap_above_greatest {w : Nat} (hw : 2 ≤ w) : wrap w (2 ^ (w - 1) - 1 + 1) = -2 ^ (w - 1) := by
  have hr : InRange w (-2 ^ (w - 1)) := ⟨le_refl _, neg_lt_self (by positivity)⟩
  refine ((wrapIsTheRepresentativeInRange w _ _ hw).2.2 hr ⟨1, ?_⟩).symm
  rw [← mul_pow_sub_one (n := w) (by omega) (2 : Int)]
  ring

/-- One below the least value is the greatest (R84). -/
theorem wrap_below_least {w : Nat} (hw : 2 ≤ w) : wrap w (-2 ^ (w - 1) + -1) = 2 ^ (w - 1) - 1 := by
  have hneg : -2 ^ (w - 1) < (2 ^ (w - 1) : Int) := neg_lt_self (by positivity)
  have hr : InRange w (2 ^ (w - 1) - 1) := ⟨Int.le_sub_one_of_lt hneg, sub_one_lt _⟩
  refine ((wrapIsTheRepresentativeInRange w _ _ hw).2.2 hr ⟨-1, ?_⟩).symm
  rw [← mul_pow_sub_one (n := w) (by omega) (2 : Int)]
  ring

/-- Settles O18: a firing and a poll count by one, and `wrap` takes the two values next to the range to its other end. -/
theorem countersWrapAtTheirLimits : Obligations.CountersWrapAtTheirLimits := by
  intro s k hw
  refine ⟨fun hc => ⟨_, rfl, ?_⟩, fun hc => ⟨_, rfl, ?_⟩, fun hc hl => ⟨_, rfl, ?_⟩, fun hc hl => ⟨_, rfl, ?_⟩⟩
  · exact (qdEdge_fired false false s).counted.trans (hc ▸ wrap_above_greatest hw)
  · exact (qdEdge_fired true false s).counted.trans (hc ▸ wrap_below_least hw)
  · exact (qdPoll_polled (by simp [hl])).counted.trans (hc ▸ wrap_above_greatest hw)
  · exact (qdPoll_polled (by simp [hl])).counted.trans (hc ▸ wrap_below_least hw)

/-! ## Frames of several steps -/

section Trans
variable {s t u : State}

theorem SameSlave.trans (h : SameSlave s t) (h' : SameSlave t u) : SameSlave s u :=
  ⟨h'.act.trans h.act, h'.rxbuf.trans h.rxbuf, h'.rxN.trans h.rxN, h'.actLog.trans h.actLog⟩

theorem SameBus.trans (h : SameBus s t) (h' : SameBus t u) : SameBus s u :=
  ⟨h'.wire.trans h.wire, h'.busLog.trans h.busLog⟩

theorem SameDecoderBut.trans {k : Chan} (h : SameDecoderBut k s t) (h' : SameDecoderBut k t u) : SameDecoderBut k s u :=
  ⟨fun j hj => (h'.others j hj).trans (h.others j hj), h'.lastA.trans h.lastA⟩

theorem SameDecoderButPoll.trans {k : PollChan} (h : SameDecoderButPoll k s t) (h' : SameDecoderButPoll k t u) :
    SameDecoderButPoll k s u :=
  ⟨fun j hj => (h'.counters j hj).trans (h.counters j hj), fun j hj => (h'.levels j hj).trans (h.levels j hj)⟩

end Trans

/-! ## Net sums -/

/-- The last level observed after a first sample is the last one from that sample's on (R85). -/
theorem lastObserved_cons (l : Level) (p : Sample) (rest : List Sample) :
    lastObserved l (p :: rest) = lastObserved p.1 rest := by
  unfold lastObserved
  rw [List.getLast?_cons]
  cases rest.getLast? <;> rfl

theorem edgeSum_nil : edgeSum [] = 0 := rfl

/-- The net sum of firings, one firing at a time (R87). -/
theorem edgeSum_cons (a b : Level) (rest : List Sample) :
    edgeSum ((a, b) :: rest) = (if a = b then 1 else -1) + edgeSum rest := by
  by_cases h : a = b <;> simp [edgeSum, h] <;> omega

/-- A poll observes the level it samples, changed or not (R81). -/
theorem qdPoll_observes (k : PollChan) (a b : Level) (s : State) : (qdPoll k a b s).lastA.get k = a := by
  by_cases ha : a = s.lastA.get k
  · rw [qdPoll_hold ha, ha]
  · exact (qdPoll_polled ha).observed

/-- A poll counts the step of its sample, which is 0 where A is unchanged (R81, R85). -/
theorem qdPoll_counts {k : PollChan} (a b : Level) {s : State} (hw : 2 ≤ s.params.cntW)
    (hr : InRange s.params.cntW (s.cnt.get k.chan)) :
    (qdPoll k a b s).cnt.get k.chan =
      wrap s.params.cntW (s.cnt.get k.chan + if a = s.lastA.get k then 0 else if b = a then -1 else 1) := by
  by_cases ha : a = s.lastA.get k
  · rw [qdPoll_hold ha, if_pos ha, add_zero, wrap_of_inRange (Nat.le_of_succ_le hw) hr.1 hr.2]
  · rw [if_neg ha, (qdPoll_polled ha).counted]

/-- Settles O19: each poll adds its step under `wrap`, and the sum may be wrapped once at the end (R84). -/
theorem polledNetSum : Obligations.PolledNetSum := by
  intro s k samples hw hr
  induction samples generalizing s with
  | nil =>
    refine ⟨_, runEvents_nil s, ?_, rfl, ⟨fun _ _ => rfl, fun _ _ => rfl⟩, ⟨rfl, rfl, rfl, rfl⟩, ⟨rfl, rfl⟩⟩
    rw [pollSum, add_zero]
    exact (wrap_of_inRange (Nat.le_of_succ_le hw) hr.1 hr.2).symm
  | cons p rest ih =>
    obtain ⟨a, b⟩ := p
    obtain ⟨hslave, hbus, hmodel⟩ := qdPoll_leaves k a b s
    have hcnt := qdPoll_counts a b hw hr
    have hr' : InRange s.params.cntW ((qdPoll k a b s).cnt.get k.chan) := hcnt ▸ wrap_inRange (Nat.le_of_succ_le hw) _
    rw [← hmodel.params] at hw hr'
    obtain ⟨t, hrun, hsum, hlast, hdec, hslave', hbus'⟩ := ih (qdPoll k a b s) hw hr'
    refine ⟨t, ?_, ?_, ?_, (qdPoll_sameDecoderButPoll k a b s).trans hdec, hslave.trans hslave', hbus.trans hbus'⟩
    · rw [List.map_cons, runEvents_evPoll, hrun]
    · rw [hsum, hmodel.params, hcnt, wrap_wrap_add, qdPoll_observes, pollSum, add_assoc]
    · rw [hlast, qdPoll_observes, lastObserved_cons]

/-- Settles O20: each firing adds its step under `wrap`, and the sum may be wrapped once at the end (R84). -/
theorem edgeNetSum : Obligations.EdgeNetSum := by
  intro s samples hw hr
  induction samples generalizing s with
  | nil =>
    refine ⟨_, runEvents_nil s, ?_, ⟨fun _ _ => rfl, rfl⟩, ⟨rfl, rfl, rfl, rfl⟩, ⟨rfl, rfl⟩⟩
    rw [edgeSum_nil, add_zero]
    exact (wrap_of_inRange (Nat.le_of_succ_le hw) hr.1 hr.2).symm
  | cons p rest ih =>
    obtain ⟨a, b⟩ := p
    obtain ⟨hcnt, hdec, hslave, hbus, hmodel⟩ := qdEdge_fired a b s
    have hr' : InRange s.params.cntW ((qdEdge a b s).cnt.get .e1) := hcnt ▸ wrap_inRange (Nat.le_of_succ_le hw) _
    rw [← hmodel.params] at hw hr'
    obtain ⟨t, hrun, hsum, hdec', hslave', hbus'⟩ := ih (qdEdge a b s) hw hr'
    refine ⟨t, ?_, ?_, hdec.trans hdec', hslave.trans hslave', hbus.trans hbus'⟩
    · rw [List.map_cons, runEvents_evEdge, hrun]
    · rw [hsum, hmodel.params, hcnt, wrap_wrap_add, edgeSum_cons, add_assoc]

end Sys2Proof.Machine
end

section
/-! PROOF. The read-out (R86): no step that may come in it touches a polled channel's counter, and only a transport
outcome that is not admitted ends it. -/

namespace Sys2Proof.Machine

/-- What a step in a read-out leaves: the polled channels' counters, the parameters, and the rest of the script. -/
structure KeepsReadOut (rest : List Event) (s t : State) : Prop where
  counters : ∀ k : PollChan, t.cnt.get k.chan = s.cnt.get k.chan
  params   : t.params = s.params
  script   : t.script = rest

/-- A step that leaves the decoder and the model alone once its event is taken from the script. -/
theorem KeepsReadOut.of_same {rest : List Event} {s t : State} (hd : SameDecoder (s.withScript rest) t)
    (hm : SameModel (s.withScript rest) t) : KeepsReadOut rest s t :=
  ⟨fun k => congrArg (·.get k.chan) hd.cnt, hm.params, hm.script⟩

/-- `BUS_XFER` leaves the decoder and the model alone, or is refused because its outcome is not admitted (R71, R104). -/
theorem busXfer_leaves_or_refused (o : XferOutcome) (s : State) :
    (∃ t, busXfer o s = .next t ∧ SameDecoder s t ∧ SameModel s t) ∨
    (admitted s.params.xferFaults o = false ∧ busXfer o s = .refused .transportOutcomeNotAdmitted) := by
  cases hw : s.wire with
  | nil => exact .inl ⟨s, busXfer_held (.inl hw), .refl s, .refl s⟩
  | cons x rest =>
    by_cases hn : s.rxN = none
    · obtain ⟨hmoved, hrefused⟩ := busXfer_enabled o hw hn
      cases ha : admitted s.params.xferFaults o with
      | true =>
        obtain ⟨t, ht, hm⟩ := hmoved ha
        exact .inl ⟨t, ht, hm.decoder, hm.model⟩
      | false => exact .inr ⟨rfl, hrefused ha⟩
    · exact .inl ⟨s, busXfer_held (.inr hn), .refl s, .refl s⟩

/-- The step of an event that may come in a read-out keeps it, or is a transport outcome not admitted and refused. -/
theorem step_duringReadOut {s : State} {e : Event} {rest : List Event} (he : DuringReadOut e) (hs : s.script = e :: rest) :
    (∃ t, step s = .next t ∧ KeepsReadOut rest s t) ∨
    ∃ o, e = evXfer o ∧ admitted s.params.xferFaults o = false ∧ step s = .refused .transportOutcomeNotAdmitted := by
  have same {t : State} (ht : step s = .next t) (hd : SameDecoder (s.withScript rest) t)
      (hm : SameModel (s.withScript rest) t) : ∃ t, step s = .next t ∧ KeepsReadOut rest s t := ⟨t, ht, .of_same hd hm⟩
  cases he with
  | firing a b =>
    have hf := qdEdge_fired a b (s.withScript rest)
    exact .inl ⟨_, step_evEdge hs, fun k => hf.decoder.others _ k.chan_ne_e1, hf.model.params, hf.model.script⟩
  | read k => exact .inl ⟨_, step_evRead hs, fun _ => rfl, rfl, rfl⟩
  | send m d sp =>
    have hsent := busTx_sent m d sp (s.withScript rest)
    exact .inl (same (step_evSend hs) hsent.decoder hsent.model)
  | xfer o =>
    rw [step_evXfer hs]
    obtain ⟨t, ht, hd, hm⟩ | hrefused := busXfer_leaves_or_refused o (s.withScript rest)
    · exact .inl ⟨t, ht, .of_same hd hm⟩
    · exact .inr ⟨o, rfl, hrefused⟩
  | recv =>
    cases hn : s.rxN with
    | none => exact .inl (same (step_evRecv_none hs hn) (.refl _) (.refl _))
    | some n =>
      have ht := step_evRecv hs hn
      split at ht
      · exact .inl (same ht (frRecv_leaves _).1 (frRecv_leaves _).2.2)
      · exact .inl (same ht (frDrain_leaves n _).1 (frDrain_leaves n _).2.2)
  | recvFrame =>
    obtain ht | ⟨f, hf⟩ := step_fr hs
    · exact .inl (same ht (.refl _) (.refl _))
    · obtain ⟨t, ht, hd, -, hm⟩ := exec_decodeFR f (s.withScript rest)
      exact .inl (same (hf.trans ht) hd hm)
  | slaveReset lines => exact .inl (same (step_resetSlave hs) ⟨rfl, rfl⟩ ⟨rfl, rfl, rfl⟩)

/-- A refused step ends a run (log 26). -/
theorem runEvents_refused {e : Event} {es : List Event} {s : State} {r : Refusal}
    (h : step (s.withScript (e :: es)) = .refused r) : runEvents (e :: es) s = .refused r := by
  rw [runEvents, List.length_cons, run_step, h]

/-- A read-out up to the read of channel `k` returns the counter it began with, or ends in the refusal of a transport
outcome that is not admitted. -/
theorem runEvents_readOut (k : PollChan) {es : List Event} (hes : ∀ e ∈ es, DuringReadOut e) (s : State) :
    (∃ t, runEvents (es ++ [evRead k.chan]) s = .next t ∧ t.readPort = some (k.chan, s.cnt.get k.chan)) ∨
    ∃ o, evXfer o ∈ es ∧ admitted s.params.xferFaults o = false ∧
      runEvents (es ++ [evRead k.chan]) s = .refused .transportOutcomeNotAdmitted := by
  induction es generalizing s with
  | nil => exact .inl ⟨_, runEvents_evRead k.chan [] s, rfl⟩
  | cons e es ih =>
    obtain ⟨he, hes⟩ := List.forall_mem_cons.mp hes
    rw [List.cons_append]
    obtain ⟨t, ht, hk⟩ | ⟨o, rfl, ha, ht⟩ := step_duringReadOut (s := s.withScript (e :: (es ++ [evRead k.chan]))) he rfl
    · have ih := ih hes t
      rw [hk.counters, hk.params] at ih
      rw [runEvents_cons ht hk.script]
      exact ih.imp_right fun ⟨o, ho, h⟩ => ⟨o, .tail _ ho, h⟩
    · exact .inr ⟨o, .head _, ha, runEvents_refused ht⟩

/-- Settles O25: `READ 1` leaves the counters, and the rest of the read-out keeps those of channels 2 to 6. -/
theorem readOutIsASnapshot : Obligations.ReadOutIsASnapshot := by
  intro s k es hes
  refine ⟨⟨_, runEvents_evRead .e1 [] s, rfl⟩, ?_⟩
  rw [List.cons_append, runEvents_evRead]
  obtain ⟨t, ht, hport⟩ | ⟨o, ho, ha, hrefused⟩ := runEvents_readOut k hes (qdRead .e1 s)
  · rw [ht]
    exact ⟨fun u hu => by cases hu; exact hport, fun _ => ⟨t, rfl⟩⟩
  · rw [hrefused]
    refine ⟨fun u hu => ?_, fun hall => ?_⟩
    · cases hu
    · exact absurd (ha.symm.trans (hall o ho)) Bool.false_ne_true

end Sys2Proof.Machine
end

section
/-! PROOF. Every command carried out was sent: the way of a transaction to `act_log` keeps `Traceable` (R54, R107). -/

namespace Sys2Proof.Machine

/-- A transaction stands for a command exactly where its bytes are that command's id, direction and speed (R107). -/
theorem Txn.command_eq_some {x : Txn} {e : ActEntry} : x.command = some e ↔
    x.b0 = motorId e.m ∧ e.cmd.mode = dirdecode x.b1 ∧ e.cmd.spd = x.b2 := by
  obtain ⟨k, mode, sp⟩ := e
  rw [Txn.command, Option.map_eq_some_iff]
  constructor
  · rintro ⟨k', hk, he⟩
    cases he
    exact ⟨motorOfId_eq_some.mp hk, rfl, rfl⟩
  · rintro ⟨h0, h1, h2⟩
    cases h1
    cases h2
    exact ⟨k, motorOfId_eq_some.mpr h0, rfl⟩

section Traceable
variable {s t : State}

/-- `Traceable` does not speak of the script. -/
theorem Traceable.withScript (h : Traceable s) (es : List Event) : Traceable (s.withScript es) :=
  ⟨h.wireSent, h.received, h.commandsSent⟩

/-- A step that leaves the slave alone, forgets no transaction and puts only logged ones on `wire` keeps it. -/
theorem Traceable.of_sameSlave (h : Traceable s) (hs : SameSlave s t) (hlog : s.busLog ⊆ t.busLog)
    (hwire : t.wire ⊆ t.busLog) : Traceable t where
  wireSent _ hy := hwire hy
  received hn := by
    obtain ⟨x, hx, hframe⟩ := h.received (hs.rxN ▸ hn)
    exact ⟨x, hlog hx, hs.rxbuf ▸ hframe⟩
  commandsSent e he := by
    obtain ⟨x, hx, hcmd⟩ := h.commandsSent e (hs.actLog ▸ he)
    exact ⟨x, hlog hx, hcmd⟩

/-- The notification of a transaction taken from `wire` comes from that transaction, which was sent (R104). -/
theorem Traceable.of_taken (h : Traceable s) {x : Txn} (wire : s.wire = x :: t.wire) (busLog : t.busLog = s.busLog)
    (actLog : t.actLog = s.actLog) (received : t.rxN ≠ none → t.rxbuf <+: [x.b0, x.b1, x.b2]) : Traceable t where
  wireSent y hy := busLog ▸ h.wireSent y (wire ▸ .tail x hy)
  received hn := ⟨x, busLog ▸ h.wireSent x (wire ▸ .head _), received hn⟩
  commandsSent := by
    rw [actLog, busLog]
    exact h.commandsSent

/-- A notification may go without a command (R107, R108). -/
theorem Traceable.of_discarded (h : Traceable s) (bus : SameBus s t) (actLog : t.actLog = s.actLog)
    (rxN : t.rxN = none) : Traceable t where
  wireSent := by
    rw [bus.wire, bus.busLog]
    exact h.wireSent
  received hn := absurd rxN hn
  commandsSent := by
    rw [actLog, bus.busLog]
    exact h.commandsSent

/-- A command was sent as the frame whose notification it consumes (R107). -/
theorem Traceable.of_commanded (h : Traceable s) {k : Motor} {d sp : Byte} (rxN : s.rxN = some 3)
    (rxbuf : s.rxbuf = [motorId k, d, sp]) (done : Commanded k (dirdecode d) sp s t) : Traceable t where
  wireSent := by
    rw [done.bus.wire, done.bus.busLog]
    exact h.wireSent
  received hn := absurd done.consumed.2 hn
  commandsSent e he := by
    rw [done.logged, List.mem_append, List.mem_singleton] at he
    rw [done.bus.busLog]
    obtain he | rfl := he
    · exact h.commandsSent e he
    · obtain ⟨x, hx, hframe⟩ := h.received (by simp [rxN])
      exact ⟨x, hx, Txn.command_eq_some.mp (Txn.command_of_frame (rxbuf ▸ hframe))⟩

/-- Whatever a well-formed row does to bus and slave keeps `Traceable`. -/
theorem TransferStep.keeps_traceable (h : TransferStep True s t) (hs : Traceable s) : Traceable t := by
  have wireSent : s.wire ⊆ s.busLog := hs.wireSent
  cases h with
  | untouched slave bus =>
    rw [← bus.wire, ← bus.busLog] at wireSent
    exact hs.of_sameSlave slave (bus.busLog ▸ List.Subset.refl _) wireSent
  | sent x wire busLog slave =>
    have older : s.busLog ⊆ t.busLog := busLog ▸ List.subset_append_left _ _
    have newest : [x] ⊆ t.busLog := busLog ▸ List.subset_append_right _ _
    exact hs.of_sameSlave slave older
      (wire ▸ List.append_subset_of_subset_of_subset (List.Subset.trans wireSent older) newest)
  | taken x _ wire busLog actLog received => exact hs.of_taken wire busLog actLog received
  | discarded bus actLog rxN => exact hs.of_discarded bus actLog rxN
  | commanded hm rxN rxbuf done =>
    cases hm trivial
    exact hs.of_commanded rxN rxbuf done

end Traceable

/-- Settles O50: whatever a transaction's way through the block does in one step, it keeps `Traceable`. -/
theorem everyCommandWasSent : Obligations.EveryCommandWasSent := fun _ _ =>
  step_keeps_of_effect (fun _ es hs => hs.withScript es) fun _ _ he hs => he.transferStep.keeps_traceable hs

end Sys2Proof.Machine
end

section
/-! PROOF. The transport step: held, or one notification for each transaction delivered (R104, R105). -/

namespace Sys2Proof.Machine

/-- The row of a transport outcome (R71). -/
def xferRow : XferOutcome → Instr
  | .deliver => .xfDeliver
  | .drop => .xfDrop
  | .prefix1 => .xfPrefix1
  | .prefix2 => .xfPrefix2

theorem exec_xferRow (o : XferOutcome) (s : State) : exec (xferRow o) s = busXfer o s := by cases o <;> rfl

/-- The four rows of R71 are those of the four outcomes. -/
theorem eq_xferRow_of_mem {i : Instr} (h : i ∈ [.xfDeliver, .xfDrop, .xfPrefix1, .xfPrefix2]) :
    ∃ o, i = xferRow o := by
  simp only [List.mem_cons, List.not_mem_nil, or_false] at h
  obtain rfl | rfl | rfl | rfl := h
  · exact ⟨.deliver, rfl⟩
  · exact ⟨.drop, rfl⟩
  · exact ⟨.prefix1, rfl⟩
  · exact ⟨.prefix2, rfl⟩

/-- Where `BUS_XFER` is enabled, the only next state is the one with the oldest transaction delivered (R104). -/
theorem busXfer_next_of_enabled {o : XferOutcome} {s t : State} {x : Txn} {rest : List Txn} (hw : s.wire = x :: rest)
    (hn : s.rxN = none) (h : busXfer o s = .next t) : t = deliver o x (s.withWire rest) := by
  cases ha : admitted s.params.xferFaults o with
  | true =>
    rw [busXfer_moves hw hn ha] at h
    exact (Host.Outcome.next.inj h).symm
  | false =>
    rw [busXfer_notAdmitted (hw ▸ List.cons_ne_nil x rest) hn ha] at h
    cases h

/-- Settles O31: each outcome but the drop begins a notification of one, two or all three bytes of the frame. -/
theorem oneNotificationPerDeliveredTransaction : Obligations.OneNotificationPerDeliveredTransaction := by
  intro s t i x rest hw hn hi h
  obtain ⟨o, rfl⟩ := eq_xferRow_of_mem hi
  rw [exec_xferRow] at h
  rw [busXfer_next_of_enabled hw hn h]
  cases o with
  | drop => exact .inl ⟨rfl, hn⟩
  | deliver => exact .inr ⟨Instr.noConfusion, 3, rfl, rfl, List.prefix_rfl, by decide⟩
  | prefix1 => exact .inr ⟨Instr.noConfusion, 1, rfl, rfl, ⟨[x.b1, x.b2], rfl⟩, by decide⟩
  | prefix2 => exact .inr ⟨Instr.noConfusion, 2, rfl, rfl, ⟨[x.b2], rfl⟩, by decide⟩

/-- Settles O30: each of the four rows is `BUS_XFER`, which is held before the outcome is looked at. -/
theorem transportIsHeldUnlessEnabled : Obligations.TransportIsHeldUnlessEnabled := by
  intro s i h hi
  obtain ⟨o, rfl⟩ := eq_xferRow_of_mem hi
  exact (exec_xferRow o s).trans (busXfer_held h)

end Sys2Proof.Machine
end

section
/-! PROOF. The receive step: a frame is applied, any other count drained, and without its notification a row is no
step (R106 to R109). -/

namespace Sys2Proof.Machine

/-- A byte addresses no actuator exactly where it is no actuator's id (R41). -/
theorem motorOfId_eq_none_iff_ne_motorId {m : Byte} : motorOfId m = none ↔ ∀ k, m ≠ motorId k :=
  Option.eq_none_iff_forall_ne_some.trans (forall_congr' fun _ => not_congr motorOfId_eq_some)

/-- The class of `FR_RECV` on a frame received: that of an unknown id, or none (R107, R130). -/
theorem silentClass_frRecv {s : State} {m d sp : Byte} (hn : s.rxN = some 3) (hb : s.rxbuf = [m, d, sp]) :
    silentClass .frRecv s = if motorOfId m = none then some .rangeError else none := by
  simp only [silentClass, frameClass, rxFrame_eq_some.mpr ⟨hn, hb, rfl⟩, true_and]

/-- Settles O33: the frame's first byte is an actuator's id, or it is none's. -/
theorem receivedFrameIsApplied : Obligations.ReceivedFrameIsApplied := by
  intro s m d sp hn hb
  refine ⟨frRecv s, rfl, ?_⟩
  rw [silentClass_frRecv hn hb]
  refine ⟨fun k hm => ?_, fun hm => ?_⟩
  · subst hm
    exact ⟨frRecv_commanded hn hb, if_neg (by simp)⟩
  · have hm := motorOfId_eq_none_iff_ne_motorId.mpr hm
    rw [(exec_frxIgnore_received hn hb hm).2]
    exact ⟨withRx_onlyConsumed s, if_pos hm⟩

/-- Settles O36: the drain loop empties `rxbuf` whatever its length. -/
theorem otherByteCountsAreDrained : Obligations.OtherByteCountsAreDrained := by
  intro s n hn h3
  refine ⟨frDrain n s, rfl, ?_, if_pos ⟨hn, h3⟩⟩
  rw [frDrain_enabled hn h3]
  exact withRx_onlyConsumed s

/-- The row that a frame selects waits for that frame, whichever row it is (R70). -/
theorem exec_decode_fr (m d sp : Byte) (s : State) :
    ∃ f, exec (decode (.fr (packFrame m d sp))) s = .next (recvRow m d sp f s) := by
  cases hm : motorOfId m with
  | some k =>
    rw [motorOfId_eq_some.mp hm, decode_fr_motorId, exec_commandRow]
    exact ⟨_, rfl⟩
  | none =>
    rw [decode_fr_unknown hm]
    exact ⟨id, rfl⟩

/-- Settles O37: each of the three operations is held unless its own notification is in progress. -/
theorem receiveRowsWaitForTheirNotification : Obligations.ReceiveRowsWaitForTheirNotification := by
  intro s
  refine ⟨fun n hn => congrArg _ (frDrain_held fun h => hn h.1),
    fun h => congrArg _ (frRecv_held (not_and_or.mpr h)), fun m d sp h => ?_⟩
  obtain ⟨f, hf⟩ := exec_decode_fr m d sp s
  rw [hf, recvRow_held (not_and_or.mpr h)]

/-- Settles O38: the three branches of R109. -/
theorem directionDecodeIsTotal : Obligations.DirectionDecodeIsTotal := fun _ =>
  ⟨congrArg dirdecode, congrArg dirdecode, dirdecode_of_ne⟩

/-- `FR_RECV` of a 3-byte notification leaves no byte and no notification, whatever the frame (R106, R107). -/
theorem frRecv_consumes {s : State} (hn : s.rxN = some 3) (hl : s.rxbuf.length = 3) :
    (frRecv s).rxbuf = [] ∧ (frRecv s).rxN = none := by
  obtain ⟨m, d, sp, hb⟩ := List.length_eq_three.mp hl
  rw [frRecv_enabled hn hb]
  unfold applyFrame
  split <;> exact ⟨rfl, rfl⟩

/-- Settles O39: where the byte count is that of the bytes, both operations consume the notification whole. -/
theorem receiveStepLeavesNothingBuffered : Obligations.ReceiveStepLeavesNothingBuffered := by
  intro s n rest hrx hn hs
  have hlen : s.rxbuf.length = n.toNat := by simpa only [RxConsistent, hn] using hrx
  refine ⟨_, step_evRecv hs hn, ?_⟩
  split
  · next h3 =>
    subst h3
    obtain ⟨hbuf, hidle⟩ := frRecv_consumes (s := s.withScript rest) hn hlen
    obtain ⟨hd, hb, hm⟩ := frRecv_leaves (s.withScript rest)
    exact ⟨hbuf, hidle, hm.script, ⟨hd.cnt, hd.lastA⟩, ⟨hb.wire, hb.busLog⟩⟩
  · next h3 =>
    rw [frDrain_enabled (s := s.withScript rest) hn h3]
    exact ⟨rfl, rfl, rfl, ⟨rfl, rfl⟩, ⟨rfl, rfl⟩⟩

/-- Without a frame received, the receive step by its frame is passed over (logs 6, 13). -/
theorem step_fr_none {s : State} {rest : List Event} (h : s.script = .fr :: rest) (hf : rxFrame s = none) :
    step s = .next (s.withScript rest) := by
  refine step_of_fetch_none ?_
  rw [fetch_event h rfl]
  simp only [keyOf, hf]

/-- Settles O7: there is no event to take, or its key cannot be formed. -/
theorem noStepWithoutAnEventOrNotification : Obligations.NoStepWithoutAnEventOrNotification := by
  intro s
  refine ⟨fun h => step_of_fetch_none (fetch_nil h), fun rest hn h => ?_⟩
  obtain h | h := h
  · exact step_evRecv_none h hn
  · exact step_fr_none h (rxFrame_eq_none.mpr (by simp [hn]))

end Sys2Proof.Machine
end

section
/-! PROOF. A frame sent, delivered and received (R111, R112). -/

namespace Sys2Proof.Machine

/-- `s` after a frame for actuator `k` has been sent, delivered and received: the direct command, with the transaction
logged and the receive state empty (R112). -/
def roundTrip (k : Motor) (d sp : Byte) (s : State) : State :=
  (((actCmd k (dirdecode d) sp s).withBusLog (s.busLog ++ [frameTxn (motorId k) d sp s])).withWire []).withRx [] none

@[simp] theorem roundTrip_act (k : Motor) (d sp : Byte) (s : State) :
    (roundTrip k d sp s).act = s.act.set k ⟨dirdecode d, sp⟩ := rfl

@[simp] theorem roundTrip_actLog (k : Motor) (d sp : Byte) (s : State) :
    (roundTrip k d sp s).actLog = s.actLog ++ [⟨k, ⟨dirdecode d, sp⟩⟩] := rfl

section RoundTrip
variable {s : State} (hw : s.wire = []) (hn : s.rxN = none) (es : List Event)
include hw hn

/-- With no transaction under way, a transaction sent and then taken from `wire` by an admitted outcome is the one
just opened (R104). -/
theorem runEvents_send_xfer {o : XferOutcome} (ha : admitted s.params.xferFaults o = true) (m d sp : Byte) :
    runEvents (evSend m d sp :: evXfer o :: es) s =
      runEvents es (deliver o (frameTxn m d sp s) ((busTx (frameTxn m d sp s) s).withWire [])) := by
  have hwire : (busTx (frameTxn m d sp s) s).wire = [frameTxn m d sp s] := by
    rw [(busTx_sent m d sp s).queued, hw]; rfl
  rw [runEvents_evSend, runEvents_evXfer hwire hn ha]

/-- The three events of a round trip leave `roundTrip`, and the rest goes on from there (R112). -/
theorem runEvents_roundTrip (k : Motor) (d sp : Byte) :
    runEvents (evSend (motorId k) d sp :: evXfer .deliver :: evRecv :: es) s = runEvents es (roundTrip k d sp s) := by
  rw [runEvents_send_xfer hw hn _ rfl, runEvents_evRecv_frame (m := motorId k) (d := d) (sp := sp) rfl rfl,
    applyFrame_known]
  rfl

end RoundTrip

/-- Settles O41: the actuators after a round trip are those after the direct command. -/
theorem roundTripActsAsTheDirectCommand : Obligations.RoundTripActsAsTheDirectCommand := by
  intro s k d sp hw hn
  exact ⟨_, runEvents_roundTrip hw hn [] k d sp, ActRegs.get_set_self _ _ _, rfl, rfl, rfl, rfl, ⟨rfl, rfl⟩⟩

/-- Settles O42: a second round trip writes the same value again, and one after a drop finds the slave as it was. -/
theorem repeatedFramesAreIdempotent : Obligations.RepeatedFramesAreIdempotent := by
  intro s k d sp hw hn _
  refine ⟨_, _, runEvents_roundTrip hw hn [] k d sp,
    (runEvents_roundTrip hw hn _ k d sp).trans (runEvents_roundTrip rfl rfl [] k d sp),
    by simp [ActRegs.set_set], by simp, fun hdrop => ?_⟩
  have lost := runEvents_send_xfer hw hn [evSend (motorId k) d sp, evXfer .deliver, evRecv] (o := .drop) hdrop
    (motorId k) d sp
  have again := runEvents_roundTrip (s := (busTx (frameTxn (motorId k) d sp s) s).withWire []) rfl hn [] k d sp
  have slave : SameSlave s _ := (busTx_sent (motorId k) d sp s).slave
  exact ⟨_, lost.trans again, by simp [slave.act], by simp [slave.actLog]⟩

end Sys2Proof.Machine
end

section
/-! PROOF. The producer contract (R100). -/

namespace Sys2Proof.Machine

/-- An integer of a byte's range is the value of its byte. -/
theorem toNat_byte_ofInt {v : Int} (h0 : 0 ≤ v) (h1 : v ≤ 255) : ((BitVec.ofInt 8 v).toNat : Int) = v := by
  rw [BitVec.toNat_ofInt]
  omega

/-- The speed passed is the clamped one, and fits a byte (R100). -/
theorem toNat_clampSpeed (speed : Option Int) : ((clampSpeed speed).toNat : Int) = min (max (speed.getD 0) 0) 255 :=
  toNat_byte_ofInt (by omega) (by omega)

/-- The direction passed (R100). -/
theorem dirmap_of_ne {c : Char} (hf : c ≠ 'f') (hb : c ≠ 'b') : dirmap c = 0 := (if_neg hf).trans (if_neg hb)

/-- For a target of a remote actuator the producer passes one triple (R100). -/
theorem producer_remote {target : Int} (h5 : 5 ≤ target) (h7 : target ≤ 7) (c : Char) (speed : Option Int) :
    producer target c speed = some (BitVec.ofInt 8 (target - 4), dirmap c, clampSpeed speed) := if_pos ⟨h5, h7⟩

/-- For any other target it passes nothing (R100). -/
theorem producer_local {target : Int} (h : target < 5 ∨ 7 < target) (c : Char) (speed : Option Int) :
    producer target c speed = none := if_neg (by omega)

/-- Settles O43: remote ids are 1 to 3, and the clamped speed fits a byte. -/
theorem producerPassesOnlyValidFrames : Obligations.ProducerPassesOnlyValidFrames := by
  intro target c speed
  refine ⟨fun h5 h7 => ?_, fun h => ?_⟩
  · have hp := producer_remote h5 h7 c speed
    refine ⟨_, _, _, hp, ?_, toNat_byte_ofInt (by omega) (by omega), congrArg dirmap, congrArg dirmap, dirmap_of_ne,
      ?_, congrArg clampSpeed⟩
    · rw [cmdEvents, hp]
    · rintro v rfl
      exact toNat_clampSpeed (some v)
  · have hp := producer_local h c speed
    exact ⟨hp, by rw [cmdEvents, hp]⟩

end Sys2Proof.Machine
end

section
/-! PROOF. Which rows are refused, and where (R66, R71, R73, R132). -/

namespace Sys2Proof

/-- The row selects no channel: a poll of a select that names none, or a reserved read (R66, R73). -/
def Instr.NoChannel (i : Instr) : Prop := (∃ k a b, i = .qpNoSuchChannel k a b) ∨ i = .rdReserved0 ∨ i = .rdReserved7

end Sys2Proof

namespace Sys2Proof.Machine

/-- A row that selects no channel is refused in every state (R66, R73). -/
theorem exec_noChannel {i : Instr} (h : i.NoChannel) (s : State) : exec i s = .refused .noSuchChannel := by
  obtain ⟨k, a, b, rfl⟩ | rfl | rfl := h <;> rfl

/-- `BUS_XFER` is refused exactly where it is enabled and its outcome not admitted (R71; log 12). -/
theorem busXfer_eq_refused_iff {o : XferOutcome} {s : State} {r : Refusal} : busXfer o s = .refused r ↔
    r = .transportOutcomeNotAdmitted ∧ s.wire ≠ [] ∧ s.rxN = none ∧ admitted s.params.xferFaults o = false := by
  constructor
  · intro h
    by_cases hheld : s.wire = [] ∨ s.rxN ≠ none
    · cases (busXfer_held hheld).symm.trans h
    · obtain ⟨hw, hn⟩ := not_or.mp hheld
      have hn := not_not.mp hn
      obtain ⟨t, ht, -⟩ | ⟨ha, hr⟩ := busXfer_leaves_or_refused o s
      · cases ht.symm.trans h
      · cases hr.symm.trans h
        exact ⟨rfl, hw, hn, ha⟩
  · rintro ⟨rfl, hw, hn, ha⟩
    exact busXfer_notAdmitted hw hn ha

/-- A row that is refused selects no channel, or is one of the transport's. -/
theorem exec_refused_cases {i : Instr} {s : State} {r : Refusal} (h : exec i s = .refused r) :
    i.NoChannel ∨ ∃ o, i = xferRow o := by
  cases i
  case qpNoSuchChannel k a b => exact .inl (.inl ⟨k, a, b, rfl⟩)
  case rdReserved0 => exact .inl (.inr (.inl rfl))
  case rdReserved7 => exact .inl (.inr (.inr rfl))
  case xfDeliver => exact .inr ⟨.deliver, rfl⟩
  case xfDrop => exact .inr ⟨.drop, rfl⟩
  case xfPrefix1 => exact .inr ⟨.prefix1, rfl⟩
  case xfPrefix2 => exact .inr ⟨.prefix2, rfl⟩
  all_goals cases h

/-- The rows of outcomes not admitted: `P_XFER_FAULTS` leaves one of three out, and never `DELIVER` (R71). -/
theorem xferRow_notAdmitted_iff {i : Instr} {f : XferFaults} : (∃ o, i = xferRow o ∧ admitted f o = false) ↔
    (i = .xfDrop ∧ f.drop = false) ∨ (i = .xfPrefix1 ∧ f.prefix1 = false) ∨ (i = .xfPrefix2 ∧ f.prefix2 = false) := by
  constructor
  · rintro ⟨o, rfl, ha⟩
    cases o with
    | deliver => cases ha
    | drop => exact .inl ⟨rfl, ha⟩
    | prefix1 => exact .inr (.inl ⟨rfl, ha⟩)
    | prefix2 => exact .inr (.inr ⟨rfl, ha⟩)
  · rintro (⟨rfl, ha⟩ | ⟨rfl, ha⟩ | ⟨rfl, ha⟩)
    · exact ⟨.drop, rfl, ha⟩
    · exact ⟨.prefix1, rfl, ha⟩
    · exact ⟨.prefix2, rfl, ha⟩

/-- Settles O59: only rows without a channel and the transport's are ever refused, and of the latter `BUS_XFER` says
where. -/
theorem refusalsAreExactlyTheSpecs : Obligations.RefusalsAreExactlyTheSpecs := by
  intro i s r _
  rw [← xferRow_notAdmitted_iff]
  constructor
  · intro h
    obtain hi | ⟨o, rfl⟩ := exec_refused_cases h
    · cases (exec_noChannel hi s).symm.trans h
      exact .inl ⟨rfl, hi⟩
    · rw [exec_xferRow] at h
      obtain ⟨hr, hw, hn, ha⟩ := busXfer_eq_refused_iff.mp h
      exact .inr ⟨hr, hw, hn, o, rfl, ha⟩
  · rintro (⟨rfl, hi⟩ | ⟨hr, hw, hn, o, rfl, ha⟩)
    · exact exec_noChannel hi s
    · rw [exec_xferRow]
      exact busXfer_eq_refused_iff.mpr ⟨hr, hw, hn, ha⟩

end Sys2Proof.Machine
end

section
/-! PROOF. The steps that end in an error class: the transport loses bytes, or the slave only consumes its notification
(R103, R107, R108, R131). -/

namespace Sys2Proof.Machine

/-- A receive step has a class where its frame is received and names no actuator (R107). -/
theorem frameClass_eq_some {m d sp : Byte} {s : State} {c : ErrorClass} (h : frameClass m d sp s = some c) :
    s.rxN = some 3 ∧ s.rxbuf = [m, d, sp] ∧ motorOfId m = none := by
  unfold frameClass at h
  split at h
  · next hf =>
    obtain ⟨hn, hb, -⟩ := rxFrame_eq_some.mp hf
    split at h
    · next hframe =>
      obtain ⟨rfl, rfl, rfl, hm⟩ := hframe
      exact ⟨hn, hb, hm⟩
    · cases h
  · cases h

/-- `FR_RECV` has a class where the frame received names no actuator (R107). -/
theorem silentClass_frRecv_eq_some {s : State} {c : ErrorClass} (h : silentClass .frRecv s = some c) :
    ∃ m d sp, s.rxN = some 3 ∧ s.rxbuf = [m, d, sp] ∧ motorOfId m = none := by
  simp only [silentClass] at h
  split at h
  · exact ⟨_, _, _, frameClass_eq_some h⟩
  · cases h

/-- `FR_DRAIN` has a class where it is enabled (R108). -/
theorem silentClass_frDrain_eq_some {n : Byte} {s : State} {c : ErrorClass} (h : silentClass (.frDrain n) s = some c) :
    s.rxN = some n ∧ n ≠ 3 := by
  by_contra hheld
  cases (if_neg hheld).symm.trans h

/-- A row that ends in a class is one of the transport's, or consumes the notification and does nothing else (R130). -/
theorem silentClass_cases {i : Instr} {s : State} {c : ErrorClass} (h : silentClass i s = some c) :
    (∃ o, i = xferRow o) ∨ exec i s = .next (s.withRx [] none) := by
  cases i
  case xfDrop => exact .inl ⟨.drop, rfl⟩
  case xfPrefix1 => exact .inl ⟨.prefix1, rfl⟩
  case xfPrefix2 => exact .inl ⟨.prefix2, rfl⟩
  case frRecv =>
    obtain ⟨m, d, sp, hn, hb, hm⟩ := silentClass_frRecv_eq_some h
    exact .inr (congrArg _ (exec_frxIgnore_received hn hb hm).2)
  case frDrain n =>
    obtain ⟨hn, h3⟩ := silentClass_frDrain_eq_some h
    exact .inr (congrArg _ (frDrain_enabled hn h3))
  case frxIgnore m d sp =>
    obtain ⟨hn, hb, hm⟩ := frameClass_eq_some h
    exact .inr (exec_frxIgnore_received hn hb hm).1
  all_goals cases h

/-- Settles O57: a transport step, whatever its outcome, touches only `wire` and the receive state, and a receive step
that ends in a class only the receive state. -/
theorem silentOutcomesLeaveNoTrace : Obligations.SilentOutcomesLeaveNoTrace := by
  intro i s t c hc h
  obtain ⟨o, rfl⟩ | hx := silentClass_cases hc
  · rw [exec_xferRow] at h
    obtain rfl | ⟨x, rest, -, -, -, rfl⟩ := busXfer_next h
    · exact ⟨rfl, rfl, rfl, .refl t⟩
    · have hm := deliver_moved o x rest s
      exact ⟨hm.act, hm.actLog, hm.busLog, hm.decoder⟩
  · cases hx.symm.trans h
    have ho := withRx_onlyConsumed s
    exact ⟨ho.act, ho.actLog, ho.bus.busLog, ho.decoder⟩

end Sys2Proof.Machine
end

section
/-! PROOF. The nodes share no state: what the slave's operations read is the slave's, and what the decoder's operations
read is the decoder's and the parameters (R138). -/

namespace Sys2Proof.Machine

/-! ## The slave -/

/-- What `f` does to the slave depends on the slave alone. -/
def ReadsSlaveOnly (f : State → State) : Prop := ∀ ⦃s s' : State⦄, SameSlave s s' → SameSlave (f s) (f s')

theorem withRx_readsSlaveOnly (buf : List Byte) (n : Option Byte) : ReadsSlaveOnly (·.withRx buf n) :=
  fun _ _ h => ⟨h.act, rfl, rfl, h.actLog⟩

theorem actCmd_readsSlaveOnly (k : Motor) (mode : Mode) (sp : Byte) : ReadsSlaveOnly (actCmd k mode sp) :=
  fun _ _ h => ⟨congrArg (·.set k ⟨mode, sp⟩) h.act, h.rxbuf, h.rxN,
    congrArg (· ++ [ActEntry.mk k ⟨mode, sp⟩]) h.actLog⟩

theorem resetSlave_readsSlaveOnly : ReadsSlaveOnly resetSlave := fun _ _ h => ⟨rfl, rfl, rfl, h.actLog⟩

theorem applyFrame_readsSlaveOnly (m d sp : Byte) : ReadsSlaveOnly (applyFrame m d sp) := by
  intro s s' h
  cases hm : motorOfId m with
  | none => rw [applyFrame_unknown hm, applyFrame_unknown hm]; exact h
  | some k =>
    rw [motorOfId_eq_some.mp hm, applyFrame_known, applyFrame_known]
    exact actCmd_readsSlaveOnly k _ sp h

/-- Whether a frame has been received, and which, is the slave's to say (R107). -/
theorem frRecv_readsSlaveOnly : ReadsSlaveOnly frRecv := by
  intro s s' h
  by_cases he : s.rxN = some 3 ∧ s.rxbuf.length = 3
  · obtain ⟨hn, hl⟩ := he
    obtain ⟨m, d, sp, hb⟩ := List.length_eq_three.mp hl
    rw [frRecv_enabled hn hb, frRecv_enabled (h.rxN.trans hn) (h.rxbuf.trans hb)]
    exact applyFrame_readsSlaveOnly m d sp (withRx_readsSlaveOnly [] none h)
  · rw [frRecv_held he, frRecv_held (by rwa [h.rxN, h.rxbuf])]
    exact h

/-- A row of R70 whose effect depends on the slave alone does so too. -/
theorem recvRow_readsSlaveOnly (m d sp : Byte) {f : State → State} (hf : ReadsSlaveOnly f) :
    ReadsSlaveOnly (recvRow m d sp f) := by
  intro s s' h
  by_cases he : s.rxN = some 3 ∧ s.rxbuf = [m, d, sp]
  · obtain ⟨hn, hb⟩ := he
    rw [recvRow_enabled hn hb, recvRow_enabled (h.rxN.trans hn) (h.rxbuf.trans hb)]
    exact hf (withRx_readsSlaveOnly [] none h)
  · rw [recvRow_held he, recvRow_held (by rwa [h.rxN, h.rxbuf])]
    exact h

/-- Whether a notification of `n` bytes is in progress is the slave's to say (R108). -/
theorem frDrain_readsSlaveOnly (n : Byte) : ReadsSlaveOnly (frDrain n) := by
  intro s s' h
  by_cases he : s.rxN = some n ∧ n ≠ 3
  · obtain ⟨hn, h3⟩ := he
    rw [frDrain_enabled hn h3, frDrain_enabled (h.rxN.trans hn) h3]
    exact withRx_readsSlaveOnly [] none h
  · rw [frDrain_held he, frDrain_held (by rwa [h.rxN])]
    exact h

/-- A row of the slave completes from every state, and what it does to the slave depends on the slave alone. -/
theorem exec_slaveRow {i : Instr} (h : i.agent = .slaveReceive ∨ i.agent = .slaveReset) :
    ∃ f, ReadsSlaveOnly f ∧ ∀ s, exec i s = .next (f s) := by
  cases i
  case frRecv => exact ⟨_, frRecv_readsSlaveOnly, fun _ => rfl⟩
  case frDrain n => exact ⟨_, frDrain_readsSlaveOnly n, fun _ => rfl⟩
  case frxFwdM1 | frxBwdM1 | frxStopM1 | frxFwdM2 | frxBwdM2 | frxStopM2 | frxFwdM3 | frxBwdM3 | frxStopM3 =>
    exact ⟨_, recvRow_readsSlaveOnly _ _ _ (actCmd_readsSlaveOnly _ _ _), fun _ => rfl⟩
  case frxIgnore m d sp => exact ⟨_, recvRow_readsSlaveOnly m d sp fun _ _ h => h, fun _ => rfl⟩
  case resetSlave => exact ⟨_, resetSlave_readsSlaveOnly, fun _ => rfl⟩
  all_goals obtain h | h := h <;> cases h

/-! ## The decoder -/

/-- What `f` does to the decoder depends on the decoder and the parameters alone. -/
def ReadsDecoderOnly (f : State → State) : Prop :=
  ∀ ⦃s s' : State⦄, SameDecoder s s' → s'.params = s.params → SameDecoder (f s) (f s')

theorem addCnt_readsDecoderOnly (k : Chan) (d : Int) : ReadsDecoderOnly (addCnt k d) := by
  intro s s' h hp
  refine ⟨?_, h.lastA⟩
  simp only [addCnt_def, State.withCnt_cnt, h.cnt, hp]

theorem qdEdge_readsDecoderOnly (a b : Level) : ReadsDecoderOnly (qdEdge a b) := by
  intro s s' h hp
  rw [qdEdge_eq, qdEdge_eq]
  exact addCnt_readsDecoderOnly .e1 _ h hp

/-- Whether A has changed is the decoder's to say (R81). -/
theorem qdPoll_readsDecoderOnly (k : PollChan) (a b : Level) : ReadsDecoderOnly (qdPoll k a b) := by
  intro s s' h hp
  by_cases ha : a = s.lastA.get k
  · rw [qdPoll_hold ha, qdPoll_hold (by rwa [h.lastA])]
    exact h
  · rw [qdPoll_changed ha, qdPoll_changed (by rwa [h.lastA])]
    exact ⟨(addCnt_readsDecoderOnly k.chan _ h hp).cnt, congrArg (·.set k a) h.lastA⟩

theorem qdRead_readsDecoderOnly (k : Chan) : ReadsDecoderOnly (qdRead k) := fun _ _ h _ => ⟨h.cnt, h.lastA⟩

theorem frSend_readsDecoderOnly (m d sp : Byte) : ReadsDecoderOnly fun s => busTx (frameTxn m d sp s) s :=
  fun _ _ h _ => ⟨h.cnt, h.lastA⟩

/-- The master's reset takes `P_LASTA_INIT` from the parameters and the levels from its event (R150). -/
theorem resetMaster_readsDecoderOnly (lines : PollLevels) : ReadsDecoderOnly (resetMaster lines) := by
  intro s s' _ hp
  refine ⟨rfl, ?_⟩
  simp only [resetMaster, State.withLastA_lastA, hp]

/-- A row of the master is refused in every state, or completes from every state, and then what it does to the decoder
depends on the decoder and the parameters alone. -/
theorem exec_masterRow {i : Instr} (h : i.agent = .edgeSource ∨ i.agent = .mainContext ∨ i.agent = .masterReset) :
    i.NoChannel ∨ ∃ f, ReadsDecoderOnly f ∧ ∀ s, exec i s = .next (f s) := by
  cases i
  case qeInc00 | qeInc11 | qeDec10 | qeDec01 => exact .inr ⟨_, qdEdge_readsDecoderOnly _ _, fun _ => rfl⟩
  case qpHold0 | qpHold1 | qpInc010 | qpInc101 | qpDec011 | qpDec100 =>
    exact .inr ⟨_, qdPoll_readsDecoderOnly _ _ _, fun _ => rfl⟩
  case qpNoSuchChannel k a b => exact .inl (.inl ⟨k, a, b, rfl⟩)
  case qdReadE1 | qdReadE2 | qdReadE3 | qdReadE4 | qdReadE5 | qdReadE6 =>
    exact .inr ⟨_, qdRead_readsDecoderOnly _, fun _ => rfl⟩
  case rdReserved0 => exact .inl (.inr (.inl rfl))
  case rdReserved7 => exact .inl (.inr (.inr rfl))
  case frSend m d sp => exact .inr ⟨_, frSend_readsDecoderOnly m d sp, fun _ => rfl⟩
  case resetMaster lines => exact .inr ⟨_, resetMaster_readsDecoderOnly lines, fun _ => rfl⟩
  all_goals obtain h | h | h := h <;> cases h

/-- Settles O55: a row of either node runs one operation, which reads that node alone. -/
theorem nodesDoNotInfluenceEachOther : Obligations.NodesDoNotInfluenceEachOther := by
  intro i s s' t h
  constructor
  · intro hi hs
    obtain ⟨f, hf, hexec⟩ := exec_slaveRow hi
    cases (hexec s).symm.trans h
    exact ⟨f s', hexec s', hf hs⟩
  · intro hi hs hp
    obtain hno | ⟨f, hf, hexec⟩ := exec_masterRow hi
    · cases (exec_noChannel hno s).symm.trans h
    · cases (hexec s).symm.trans h
      exact ⟨f s', hexec s', hf hs hp⟩

end Sys2Proof.Machine
end

section
/-! PROOF. The hazards of section 2 of 70_reset_and_hazards.md: a sample left out of a poll, and a bouncing edge (R157,
R158). -/

namespace Sys2Proof.Machine

/-- Settles O23: both samples of A = 1 observe the same change, and only the first counts, by the level of B it samples. -/
theorem underSamplingReversesAStep : Obligations.UnderSamplingReversesAStep := by
  intro s k hl
  have polled (b : Level) := qdPoll_polled (k := k) (a := true) (b := b) (s := s.withScript []) (by simp [hl])
  have hold : qdPoll k true true (qdPoll k true false s) = qdPoll k true false s :=
    qdPoll_hold (qdPoll_observes k true false s).symm
  refine ⟨⟨_, ?_, polled true⟩, ⟨_, ?_, polled false⟩⟩
  · rw [runEvents_evPoll, runEvents_nil, qdPoll_withScript]
  · rw [runEvents_evPoll, runEvents_evPoll, hold, runEvents_nil, qdPoll_withScript]

theorem Counters.set_set (c : Counters) (k : Chan) (u v : Count) : (c.set k u).set k v = c.set k v := by
  cases k <;> rfl

/-- Two counts of one channel are one count of their sum: the value between them is wrapped once more (R84). -/
theorem addCnt_addCnt (k : Chan) (d e : Int) (s : State) : addCnt k e (addCnt k d s) = addCnt k (d + e) s := by
  simp only [addCnt_def, State.withCnt_cnt, State.withCnt_params, Counters.get_set_self, Counters.set_set,
    wrap_wrap_add, add_assoc]
  rfl

/-- With B stable, firings with opposite levels of A count with opposite signs (R80). -/
theorem qdEdge_not (a b : Level) (s : State) : qdEdge (!a) b s = addCnt .e1 (-if a = b then 1 else -1) s := by
  rw [qdEdge_eq]
  cases a <;> cases b <;> rfl

/-- A transition that reverts and comes again leaves the state as its first firing did (R158). -/
theorem qdEdge_again (a b : Level) (s : State) : qdEdge a b (qdEdge (!a) b (qdEdge a b s)) = qdEdge a b s := by
  rw [qdEdge_not, qdEdge_eq, qdEdge_eq, addCnt_addCnt, addCnt_addCnt, neg_add_cancel, add_zero]

/-- A bouncing transition runs as one firing, whatever the number of its bounces (R158). -/
theorem runEvents_bounce (a b : Level) (j : Nat) (s : State) : runEvents (bounce a b j) s = runEvents [evEdge a b] s := by
  induction j generalizing s with
  | zero => rfl
  | succ j ih =>
    rw [bounce, runEvents_evEdge, runEvents_evEdge, ih, runEvents_evEdge, runEvents_evEdge, qdEdge_again]

/-- Settles O24: the two runs end in the same state. -/
theorem bounceCountsAsOneFiring : Obligations.BounceCountsAsOneFiring := fun s a b j =>
  have fired : runEvents [evEdge a b] s = .next ((qdEdge a b s).withScript []) := runEvents_evEdge a b [] s
  ⟨_, _, (runEvents_bounce a b j s).trans fired, fired, rfl⟩

end Sys2Proof.Machine
end

section
/-! PROOF. The receive step lifts the hold of the transport (R104, R163). -/

namespace Sys2Proof.Machine

/-- Settles O40: after the receive step no notification is in progress and `wire` is as before, so `BUS_XFER` is
enabled; full delivery is always admitted. -/
theorem receiveStepLiftsTheTransportHold : Obligations.ReceiveStepLiftsTheTransportHold := by
  intro s n x rest hrx hn hw
  have hbusy : s.rxN ≠ none := by simp [hn]
  obtain ⟨t, ht, -, hidle, hscript, -, hbus⟩ :=
    receiveStepLeavesNothingBuffered (s.withScript [evRecv, evXfer .deliver]) n [evXfer .deliver] hrx hn rfl
  have hwire : t.wire = x :: rest := hbus.wire.trans hw
  refine ⟨busXfer_held (.inr hbusy), (deliver .deliver x (t.withWire rest)).withScript [], ?_, rfl, rfl, rfl⟩
  rw [runEvents_cons ht hscript, runEvents_evXfer hwire hidle rfl, runEvents_nil]

end Sys2Proof.Machine
end

section
/-! PROOF. The resets of the two nodes and the power-up (R34, R150, R151). -/

namespace Sys2Proof

@[simp] theorem PollLevels.get_zero (k : PollChan) : PollLevels.zero.get k = false := by cases k <;> rfl

end Sys2Proof

namespace Sys2Proof.Machine

section Reset
variable (lines : PollLevels) {s : State}

/-- With `P_LASTA_INIT` = `SAMPLE` the master's reset stores the levels it samples (R150). -/
theorem resetMaster_lastA_of_sample (h : s.params.lastAInit = .sample) : (resetMaster lines s).lastA = lines := by
  simp only [resetMaster, h, State.withLastA_lastA]

/-- With `P_LASTA_INIT` = `ZERO` the master's reset stores 0 for every channel (R150). -/
theorem resetMaster_lastA_of_zero (h : s.params.lastAInit = .zero) : (resetMaster lines s).lastA = .zero := by
  simp only [resetMaster, h, State.withLastA_lastA]

/-- Of the state before a power-up that samples the levels, the parameters and the script are all that is left (R151). -/
theorem powerUp_of_sample (h : s.params.lastAInit = .sample) :
    powerUp lines s = { State.reset with params := s.params, lastA := lines, script := s.script } := by
  simp only [powerUp, resetMaster, h]
  rfl

end Reset

/-- Settles O44: the master's reset writes the counters and `lastA`, the slave's the actuators and the receive state. -/
theorem resetsSetTheResetValues : Obligations.ResetsSetTheResetValues := by
  intro s lines
  constructor
  · obtain ⟨hslave, hbus⟩ := (AgentStep.masterReset (s := s) lines).masterReset_leaves
    refine ⟨_, rfl, Counters.get_zero, resetMaster_lastA_of_sample lines, fun h k => ?_, hslave, hbus, ⟨rfl, rfl, rfl⟩⟩
    rw [resetMaster_lastA_of_zero lines h, PollLevels.get_zero]
  · obtain ⟨hdecoder, hbus⟩ := (AgentStep.slaveReset (s := s)).slaveReset_leaves
    exact ⟨_, rfl, ActRegs.get_unset, rfl, rfl, rfl, hdecoder, hbus, ⟨rfl, rfl, rfl⟩⟩

/-- Settles O46: `POWERUP` is the two resets one after the other, and then touches none of the registers they set. -/
theorem powerUpClearsEverything : Obligations.PowerUpClearsEverything := fun s lines =>
  ⟨resetMaster lines s, resetSlave (resetMaster lines s), rfl, rfl, rfl, rfl, rfl, rfl, rfl, rfl, rfl, rfl, rfl, rfl, rfl⟩

/-- Settles O47: the parameters at reset choose `SAMPLE`, and all else of the state is lost in the power-up. -/
theorem resetStateIsAPowerUp : Obligations.ResetStateIsAPowerUp := by
  intro s hp hs
  have hsample : s.params.lastAInit = .sample := by rw [hp]; rfl
  rw [powerUp_of_sample _ hsample, hp, hs]
  rfl

end Sys2Proof.Machine
end

section
/-! PROOF. `decode` gives back every well-formed row from its key, whatever its operands (R63 to R73). -/

namespace Sys2Proof

/-! ## Keys with operands -/

/-- A poll's key keeps the sampled level `a` in bit 1 (R60). -/
theorem packLAB_packAB_getLsbD_one (l a b : Level) : (packLAB l (packAB a b)).getLsbD 1 = a := by
  cases l <;> cases a <;> cases b <;> rfl

/-- A poll's key keeps the sampled level `b` in bit 0 (R60). -/
theorem packLAB_packAB_getLsbD_zero (l a b : Level) : (packLAB l (packAB a b)).getLsbD 0 = b := by
  cases l <;> cases a <;> cases b <;> rfl

/-- The row for no polled channel keeps the select and both sampled levels (R73). -/
theorem decode_encode_qpNoSuchChannel {k : BitVec 3} (h : selectsNoPollChannel k = true) (a b : Level) :
    decode (encode (.qpNoSuchChannel k a b)) = .qpNoSuchChannel k a b := by
  refine (Machine.decodeQP_of_ofSel_none ((PollChan.ofSel_eq_none k).mpr h) _).trans ?_
  rw [packLAB_packAB_getLsbD_one, packLAB_packAB_getLsbD_zero]

/-- A send request keeps its three bytes (R68). -/
theorem decode_tx_packFrame (m d sp : Byte) : decode (.tx (packFrame m d sp)) = .frSend m d sp := by
  simp only [decode, decodeTX, frameByte0_packFrame, frameByte1_packFrame, frameByte2_packFrame]

/-- The row of a command is decoded from its key again, whatever its direction byte (R70, R109). -/
theorem decode_encode_commandRow (k : Motor) (d sp : Byte) :
    decode (encode (Machine.commandRow k (Machine.dirdecode d) d sp)) = Machine.commandRow k (Machine.dirdecode d) d sp := by
  rw [Machine.encode_commandRow, Machine.decode_fr_motorId]

/-- The stop rows keep every direction byte but forward and backward (R70). -/
theorem decode_encode_stopRow (k : Motor) {d : Byte} (h : decodesAsStop d = true) (sp : Byte) :
    decode (encode (Machine.commandRow k .stop d sp)) = Machine.commandRow k .stop d sp := by
  rw [Machine.dirdecode_of_decodesAsStop h, decode_encode_commandRow]

/-! ## All rows -/

/-- The key of a well-formed row selects that row. -/
theorem decode_encode {i : Instr} (h : i.wellFormed = true) : decode (encode i) = i := by
  cases i with
  | qeInc00 | qeInc11 | qeDec10 | qeDec01 => rfl
  | qpHold0 k b | qpHold1 k b => exact (Machine.decode_qp_sel k _).trans (by cases b <;> rfl)
  | qpInc010 k | qpInc101 k | qpDec011 k | qpDec100 k => exact Machine.decode_qp_sel k _
  | qpNoSuchChannel k a b => exact decode_encode_qpNoSuchChannel h a b
  | qdReadE1 | qdReadE2 | qdReadE3 | qdReadE4 | qdReadE5 | qdReadE6 | rdReserved0 | rdReserved7 => rfl
  | frSend m d sp => exact decode_tx_packFrame m d sp
  | xfDeliver | xfDrop | xfPrefix1 | xfPrefix2 => rfl
  | frRecv => rfl
  | frDrain n => exact (byteCountSelectsTheReceiveOperation n).2 (bne_iff_ne.mp h)
  | frxFwdM1 sp => exact decode_encode_commandRow .m1 1 sp
  | frxBwdM1 sp => exact decode_encode_commandRow .m1 2 sp
  | frxStopM1 d sp => exact decode_encode_stopRow .m1 h sp
  | frxFwdM2 sp => exact decode_encode_commandRow .m2 1 sp
  | frxBwdM2 sp => exact decode_encode_commandRow .m2 2 sp
  | frxStopM2 d sp => exact decode_encode_stopRow .m2 h sp
  | frxFwdM3 sp => exact decode_encode_commandRow .m3 1 sp
  | frxBwdM3 sp => exact decode_encode_commandRow .m3 2 sp
  | frxStopM3 d sp => exact decode_encode_stopRow .m3 h sp
  | frxIgnore m d sp => exact Machine.decode_fr_unknown (Option.isNone_iff_eq_none.mp h) d sp
  | resetMaster lines => rfl
  | resetSlave => rfl

/-- Settles O1: every row's operands stand in its key, and no earlier row of its table takes the key. -/
theorem encodeThenDecodeGivesTheRow : Obligations.EncodeThenDecodeGivesTheRow := fun _ => decode_encode

/-- A key decodes to the well-formed row whose key it is. -/
theorem decode_of_encode_eq {key : Key} {i : Instr} (h : i.wellFormed = true) (hkey : encode i = key) :
    decode key = i :=
  hkey ▸ decode_encode h

/-- Settles O3: each word is the key of the well-formed row it stands for. -/
theorem wordsOfTheTablesDecode : Obligations.WordsOfTheTablesDecode := by
  refine ⟨?_, ?_, ?_, ?_, ?_, ?_, ?_, ?_, ?_, ?_, ?_, ?_, ?_⟩ <;> exact decode_of_encode_eq rfl rfl

end Sys2Proof
end
